-- ==== Sys2Proof/Word.lean ====
section
/-! DEFINITION. The word types of MI23FSD: bytes, nibbles, segment patterns, the two encoded words, and the opaque timestamp. -/

namespace Sys2Proof

/-- A byte of the input stream, `b[7:0]` (30_encoding.md R68). -/
abbrev Byte := BitVec 8

/-- A frame-index or data nibble (30_encoding.md R68), or a key mask (R75). -/
abbrev Nibble := BitVec 4

/-- A 7-segment pattern, `DB[6:0]` (30_encoding.md R73). -/
abbrev Pattern := BitVec 7

/-- The frame word `F`, with `d[k]` at `F[55-4k : 52-4k]` (30_encoding.md R71). -/
abbrev FrameWord := BitVec 56

/-- The input word `IW` = rst, err, eos, vld, idx, dat (30_encoding.md R66). -/
abbrev InputWord := BitVec 12

/-- A timestamp. The spec's `TS` is an opaque type parameter (00_scope.md R10, 10_state.md R38): the model only
copies it, and nothing may look at the number inside.
DESIGN CHOICE (assumption 1): a wrapped natural number stands for the parameter. -/
structure TS where
  tick : Nat
deriving DecidableEq, Repr, Inhabited

end Sys2Proof
end

