-- ==== Sys2Proof/Config.lean ====
section
/-! DEFINITION. What an implementation of MI23FSD fixes: the four decode tables, which the spec leaves open under constraints, and the free values. -/

namespace Sys2Proof

/-- An entry of a key table: `off`, `mask`, `sym` (20_memory.md R51).
DEDUCED (assumption 2): `off` is a `Fin 14`, so that a table naming offset 14 or 15, which R53 says a model refuses,
cannot be written down. -/
structure KeyEntry where
  off  : Fin 14
  mask : Nibble
  sym  : String
deriving DecidableEq, Repr, Inhabited

/-- The four decode tables (00_scope.md R11, 20_memory.md R49 to R57).
`seg` is the partial map from patterns to characters, as a list in rising order of pattern; an unlisted pattern is unmapped. -/
structure Tables where
  seg  : List (Pattern × Byte)
  pfx  : List KeyEntry
  unit : List KeyEntry
  opt  : Vector KeyEntry 7
deriving DecidableEq, Repr, Inhabited

/-- The (offset, mask) pair of an entry: its key (20_memory.md R52). -/
def KeyEntry.key (e : KeyEntry) : Fin 14 × Nibble := (e.off, e.mask)

/-- `SEG_TABLE[p]`: the mapped character, or `none` where `known = 0` (20_memory.md R49). -/
def Tables.segAt (T : Tables) (p : Pattern) : Option Byte := T.seg.lookup p

/-- The segment table is in canonical form: patterns strictly rising, so that equal maps are equal lists. -/
def Tables.segRising (T : Tables) : Bool := decide ((T.seg.map Prod.fst).Pairwise (· < ·))

/-- R54: pattern 0x7D is the character `0` (0x30). -/
def Tables.segZero (T : Tables) : Bool := T.segAt 0x7D#7 == some 0x30#8

/-- R55: pattern 0x2A is unmapped. -/
def Tables.segHole (T : Tables) : Bool := T.segAt 0x2A#7 == none

/-- R52: keys are unique within each key table. -/
def Tables.keysUnique (T : Tables) : Bool :=
  decide ((T.pfx.map KeyEntry.key).Nodup) && decide ((T.unit.map KeyEntry.key).Nodup)
    && decide ((T.opt.toList.map KeyEntry.key).Nodup)

/-- R56: an `AC` entry with key (0, 0x8) stands before a `relative` entry with key (11, 0x2). -/
def Tables.acThenRelative (T : Tables) : Bool :=
  decide (∃ i j : Fin 7, i < j ∧ T.opt[i] = ⟨0, 0x8#4, "AC"⟩ ∧ T.opt[j] = ⟨11, 0x2#4, "relative"⟩)

/-- R57 with R114: the seven option names are distinct. -/
def Tables.optNamesDistinct (T : Tables) : Bool := decide ((T.opt.toList.map KeyEntry.sym).Nodup)

/-- R58 for one entry: at an odd digit offset the mask is 0x0 or 0x8, at an even digit offset 0x0 or 0x2. -/
def KeyEntry.quiet (e : KeyEntry) : Bool :=
  (!([1, 3, 5, 7].contains e.off.val) || e.mask &&& 0x7#4 == 0#4)
    && (!([2, 4, 6, 8].contains e.off.val) || e.mask &&& 0xD#4 == 0#4)

/-- R58: no entry of any key table matches the frame of the digits `0000`. -/
def Tables.keysQuiet (T : Tables) : Bool :=
  T.pfx.all KeyEntry.quiet && T.unit.all KeyEntry.quiet && T.opt.toList.all KeyEntry.quiet

/-- The admissible tables (20_memory.md R59): every constraint of R49 to R58. -/
def Tables.admissible (T : Tables) : Bool :=
  T.segRising && T.segZero && T.segHole && T.keysUnique && T.acThenRelative && T.optNamesDistinct && T.keysQuiet

/-- The least table the constraints ask for: the entries the source states, and five options that never match.
It is not a guess at the real contents: `Config.tables` falls back on it only where the uninterpreted
`Config.freeTables` is not admissible, so that `Config.tables` ranges over exactly the admissible tables. -/
def Tables.least : Tables where
  seg  := [(0x7D#7, 0x30#8)]
  pfx  := []
  unit := []
  opt  := #v[⟨0, 0x8#4, "AC"⟩, ⟨0, 0#4, "DC"⟩, ⟨9, 0#4, "auto-range"⟩, ⟨10, 0#4, "RS232-linked"⟩,
             ⟨11, 0x2#4, "relative"⟩, ⟨11, 0#4, "diode"⟩, ⟨12, 0#4, "buzzer"⟩]

/-- The open contents of the decode tables (92_eei_decisions.md D8): uninterpreted, so nothing in Lean can look inside.
DESIGN CHOICE (assumption 3). -/
opaque Config.freeTables : Tables

/-- The machine's decode tables: any admissible choice (20_memory.md R59, 93_implementation_defined.md I1). -/
def Config.tables : Tables := if Config.freeTables.admissible then Config.freeTables else Tables.least

/-- Free bytes, for the window slots that RST leaves unspecified (10_state.md R39). DESIGN CHOICE (assumption 4). -/
opaque Config.freeByte : Nat → Byte

/-- Free timestamps, for the slots and `frame_ts` that RST leaves unspecified (10_state.md R39). -/
opaque Config.freeStamp : Nat → TS

/-- Free frame words, for the `frame_d` that RST leaves unspecified (10_state.md R39). -/
opaque Config.freeFrameWord : Nat → FrameWord

/-- `PFX_IDX_W` and `UNIT_IDX_W`: the width of an index into a table of `n` entries (30_encoding.md R76). -/
def Config.indexWidth (n : Nat) : Nat := max 1 (Nat.clog 2 n)

end Sys2Proof
end

