-- ==== Sys2Proof/Syntax.lean ====
section
/-! DEFINITION. The operations of MI23FSD: one constructor per row of spec/opcode_table.json (30_encoding.md R80). -/

namespace Sys2Proof

/-- One operation. The input events are those of 10_state.md R30, with BYTE split into its 16 classes (30_encoding.md R69);
a byte class carries the data nibble `dat`. A byte's timestamp `in_ts` is no part of the input word (R66): it stands on the
input port, in State. -/
inductive Instr where
  /-- no event (R93) -/
  | idle
  /-- a byte with frame-index nibble 0 (R86) -/
  | noise0 (dat : Nibble)
  /-- bytes with frame-index nibble 1 to 13 (R87) -/
  | fidx1 (dat : Nibble)
  | fidx2 (dat : Nibble)
  | fidx3 (dat : Nibble)
  | fidx4 (dat : Nibble)
  | fidx5 (dat : Nibble)
  | fidx6 (dat : Nibble)
  | fidx7 (dat : Nibble)
  | fidx8 (dat : Nibble)
  | fidx9 (dat : Nibble)
  | fidx10 (dat : Nibble)
  | fidx11 (dat : Nibble)
  | fidx12 (dat : Nibble)
  | fidx13 (dat : Nibble)
  /-- the terminator, frame-index nibble 14 (R88) -/
  | fterm (dat : Nibble)
  /-- a byte with frame-index nibble 15 (R89) -/
  | noise15 (dat : Nibble)
  /-- end of stream (R94) -/
  | eos
  /-- device failure (R96) -/
  | ioerr
  /-- reset (R97) -/
  | rst
  /-- the Frame Decoder's function applied to a frame word (R105) -/
  | decode (word : FrameWord)
deriving DecidableEq, Repr

/-- The row's name in spec/opcode_table.json. -/
def Instr.mnemonic : Instr → String
  | .idle => "IDLE"
  | .noise0 _ => "NOISE0"
  | .fidx1 _ => "FIDX1"
  | .fidx2 _ => "FIDX2"
  | .fidx3 _ => "FIDX3"
  | .fidx4 _ => "FIDX4"
  | .fidx5 _ => "FIDX5"
  | .fidx6 _ => "FIDX6"
  | .fidx7 _ => "FIDX7"
  | .fidx8 _ => "FIDX8"
  | .fidx9 _ => "FIDX9"
  | .fidx10 _ => "FIDX10"
  | .fidx11 _ => "FIDX11"
  | .fidx12 _ => "FIDX12"
  | .fidx13 _ => "FIDX13"
  | .fterm _ => "FTERM"
  | .noise15 _ => "NOISE15"
  | .eos => "EOS"
  | .ioerr => "IOERR"
  | .rst => "RST"
  | .decode _ => "DECODE"

end Sys2Proof
end

