-- ==== Sys2Proof/WellFormed.lean ====
section
/-! DEFINITION. Well-formedness. MI23FSD has no illegal operand (30_encoding.md R78), so every Instr is well formed; the checks are those on the decode tables. -/

namespace Sys2Proof

/-- Every operand value is legal: all 16 data nibbles of a byte class and all 2^56 frame words (30_encoding.md R78).
The operand types hold exactly those values, so nothing is left to check. -/
def Instr.wf : Instr → Bool
  | .idle | .eos | .ioerr | .rst => true
  | .noise0 _ | .fterm _ | .noise15 _ => true
  | .fidx1 _ | .fidx2 _ | .fidx3 _ | .fidx4 _ | .fidx5 _ | .fidx6 _ | .fidx7 _ => true
  | .fidx8 _ | .fidx9 _ | .fidx10 _ | .fidx11 _ | .fidx12 _ | .fidx13 _ => true
  | .decode _ => true

/-- The first constraint of 20_memory.md R49 to R58 that a table breaks, by name; `none` for an admissible table. -/
def Tables.firstFlaw (T : Tables) : Option String :=
  if !T.segRising then some "segment patterns not strictly rising"
  else if !T.segZero then some "R54: 0x7D is not the character 0"
  else if !T.segHole then some "R55: 0x2A is mapped"
  else if !T.keysUnique then some "R52: a key stands twice in one table"
  else if !T.acThenRelative then some "R56: AC before relative is missing"
  else if !T.optNamesDistinct then some "R57: two options share a name"
  else if !T.keysQuiet then some "R58: an entry matches the 0000 frame"
  else none

end Sys2Proof
end

