-- ==== Sys2Proof/Decode.lean ====
section
/-! DEFINITION. The encodings of 30_encoding.md: the input word's priority decode, the byte classes, the frame word, the operation map, the encoder, and the byte layout the host's words come in. -/

namespace Sys2Proof

/-- The byte class fixed by the frame-index nibble (30_encoding.md R69). -/
def byteInstr (idx dat : Nibble) : Instr :=
  match idx.toNat with
  | 0 => .noise0 dat
  | 1 => .fidx1 dat
  | 2 => .fidx2 dat
  | 3 => .fidx3 dat
  | 4 => .fidx4 dat
  | 5 => .fidx5 dat
  | 6 => .fidx6 dat
  | 7 => .fidx7 dat
  | 8 => .fidx8 dat
  | 9 => .fidx9 dat
  | 10 => .fidx10 dat
  | 11 => .fidx11 dat
  | 12 => .fidx12 dat
  | 13 => .fidx13 dat
  | 14 => .fterm dat
  | _ => .noise15 dat

/-- `IW[7:4]` (30_encoding.md R66). -/
def inputIdx (w : InputWord) : Nibble := w.extractLsb' 4 4

/-- `IW[3:0]` (30_encoding.md R66). -/
def inputDat (w : InputWord) : Nibble := w.extractLsb' 0 4

/-- The event an input word stands for, by the fixed priority rst > err > eos > vld (30_encoding.md R67). -/
def decodeInput (w : InputWord) : Instr :=
  if w.getLsbD 11 then .rst
  else if w.getLsbD 10 then .ioerr
  else if w.getLsbD 9 then .eos
  else if w.getLsbD 8 then byteInstr (inputIdx w) (inputDat w)
  else .idle

/-- Every frame word is an operand of DECODE (30_encoding.md R83, 41_decoder.md R105). -/
def decodeFrameWord (F : FrameWord) : Instr := .decode F

/-- Why a row of bytes is no encoding. Every 12-bit input word and every 56-bit frame word is legal (30_encoding.md R78, R79);
what is left to refuse is a length that neither format has, and a set bit outside the 12 bits. -/
inductive DecodeError where
  /-- Neither the 2 bytes that hold an input word nor the 7 bytes of a frame word. Safe: nothing runs. -/
  | badLength (bytes : Nat)
  /-- Bits 15..12 of the two bytes that hold an input word are not zero: no wire of the 12-bit port carries them. Safe: nothing runs. -/
  | bitsBeyondPort
deriving DecidableEq, Repr

/-- Decoding from bytes, the lowest-numbered bits first. DESIGN CHOICE (assumption 5): the ports of MI23FSD are wires and its
words have no byte order; this layout serves the host's interface only. -/
def decodeBytes : List Byte → Except DecodeError Instr
  | [b0, b1] =>
    if b1.extractLsb' 4 4 = 0#4 then .ok (decodeInput (b1.extractLsb' 0 4 ++ b0)) else .error .bitsBeyondPort
  | [b0, b1, b2, b3, b4, b5, b6] => .ok (decodeFrameWord (b6 ++ b5 ++ b4 ++ b3 ++ b2 ++ b1 ++ b0))
  | bs => .error (.badLength bs.length)

/-- An encoded operation: a word of the input port, or a frame word. -/
inductive Encoded where
  | input (w : InputWord)
  | frame (F : FrameWord)
deriving DecidableEq, Repr

/-- The input word of a byte event: `vld` set, `idx`, `dat` (30_encoding.md R66). -/
def byteWord (idx dat : Nibble) : InputWord := 0x1#4 ++ idx ++ dat

/-- The encoder, from the match column of 30_encoding.md R80; ignored fields are zero. -/
def encode : Instr → Encoded
  | .idle => .input 0x000#12
  | .noise0 dat => .input (byteWord 0x0#4 dat)
  | .fidx1 dat => .input (byteWord 0x1#4 dat)
  | .fidx2 dat => .input (byteWord 0x2#4 dat)
  | .fidx3 dat => .input (byteWord 0x3#4 dat)
  | .fidx4 dat => .input (byteWord 0x4#4 dat)
  | .fidx5 dat => .input (byteWord 0x5#4 dat)
  | .fidx6 dat => .input (byteWord 0x6#4 dat)
  | .fidx7 dat => .input (byteWord 0x7#4 dat)
  | .fidx8 dat => .input (byteWord 0x8#4 dat)
  | .fidx9 dat => .input (byteWord 0x9#4 dat)
  | .fidx10 dat => .input (byteWord 0xA#4 dat)
  | .fidx11 dat => .input (byteWord 0xB#4 dat)
  | .fidx12 dat => .input (byteWord 0xC#4 dat)
  | .fidx13 dat => .input (byteWord 0xD#4 dat)
  | .fterm dat => .input (byteWord 0xE#4 dat)
  | .noise15 dat => .input (byteWord 0xF#4 dat)
  | .eos => .input 0x200#12
  | .ioerr => .input 0x400#12
  | .rst => .input 0x800#12
  | .decode F => .frame F

/-- The bytes of an encoded word, the lowest-numbered bits first. -/
def Encoded.bytes : Encoded → List Byte
  | .input w => [w.extractLsb' 0 8, 0#4 ++ w.extractLsb' 8 4]
  | .frame F => [F.extractLsb' 0 8, F.extractLsb' 8 8, F.extractLsb' 16 8, F.extractLsb' 24 8, F.extractLsb' 32 8,
                 F.extractLsb' 40 8, F.extractLsb' 48 8]

/-- The bytes of an operation. -/
def encodeBytes (i : Instr) : List Byte := (encode i).bytes

/-- The operation map over `IW[11:0]` (30_encoding.md R80): mnemonic, match, mask. DECODE has no input word and no row here. -/
def operationMap : List (String × InputWord × InputWord) :=
  [("IDLE", 0x000#12, 0xF00#12), ("NOISE0", 0x100#12, 0xFF0#12), ("FIDX1", 0x110#12, 0xFF0#12),
   ("FIDX2", 0x120#12, 0xFF0#12), ("FIDX3", 0x130#12, 0xFF0#12), ("FIDX4", 0x140#12, 0xFF0#12),
   ("FIDX5", 0x150#12, 0xFF0#12), ("FIDX6", 0x160#12, 0xFF0#12), ("FIDX7", 0x170#12, 0xFF0#12),
   ("FIDX8", 0x180#12, 0xFF0#12), ("FIDX9", 0x190#12, 0xFF0#12), ("FIDX10", 0x1A0#12, 0xFF0#12)]
  ++ [("FIDX11", 0x1B0#12, 0xFF0#12), ("FIDX12", 0x1C0#12, 0xFF0#12), ("FIDX13", 0x1D0#12, 0xFF0#12),
   ("FTERM", 0x1E0#12, 0xFF0#12), ("NOISE15", 0x1F0#12, 0xFF0#12), ("EOS", 0x200#12, 0xE00#12),
   ("IOERR", 0x400#12, 0xC00#12), ("RST", 0x800#12, 0x800#12)]

/-- The bytes of a word given as the opcode table numbers its bits: an input word in two bytes, a frame word in seven. -/
def tableWordBytes (nbits w : Nat) : List Byte :=
  if nbits ≤ 16 then [BitVec.ofNat 8 w, BitVec.ofNat 8 (w / 256)]
  else [BitVec.ofNat 8 w, BitVec.ofNat 8 (w / 2 ^ 8), BitVec.ofNat 8 (w / 2 ^ 16), BitVec.ofNat 8 (w / 2 ^ 24),
        BitVec.ofNat 8 (w / 2 ^ 32), BitVec.ofNat 8 (w / 2 ^ 40), BitVec.ofNat 8 (w / 2 ^ 48)]

/-- What the decoder reads from a word of `nbits` bits. A word too wide for its format is refused. -/
def decodeTableWord (nbits w : Nat) : Option Instr :=
  if w < 2 ^ nbits ∧ w < 2 ^ 56 then (decodeBytes (tableWordBytes nbits w)).toOption else none

end Sys2Proof
end

