-- ==== Sys2Proof/Machine/Ports.lean ====
section
/-! DEFINITION. The kinds of value that stand in MI23FSD's state and on its ports (10_state.md R21, R24, R29, R32, R36, R37). -/

namespace Sys2Proof.Machine

open Sys2Proof

/-- A window slot `{ts, b}` (10_state.md R21). -/
structure Slot where
  ts : TS
  b  : Byte
deriving DecidableEq, Repr, Inhabited

/-- What the byte source presents for one step: the input word and `in_ts` (10_state.md R29, 30_encoding.md R66). -/
structure InputBeat where
  word : InputWord
  ts   : TS
deriving DecidableEq, Repr, Inhabited

/-- The terminal status (10_state.md R24). The reserved code 0b11 is no status: a state holding it, which R77 says a model
refuses, cannot be written down. -/
inductive TermStatus where
  | run
  | eos
  | ioErr
deriving DecidableEq, Repr, Inhabited

/-- `term_code` (10_state.md R33, 30_encoding.md R77). -/
def TermStatus.code : TermStatus → BitVec 2
  | .run => 0b00#2
  | .eos => 0b01#2
  | .ioErr => 0b10#2

/-- A Frame: the 14 data nibbles, packed as the frame word, and the first byte's timestamp (10_state.md R36, 30_encoding.md R71). -/
structure Frame where
  word : FrameWord
  ts   : TS
deriving DecidableEq, Repr, Inhabited

/-- The outputs of one digit lane: `dig_flag[i]`, `dig_pat[i]`, `dig_known[i]`, `dig_char[i]` (10_state.md R32). -/
structure Lane where
  flag  : Bool
  pat   : Pattern
  known : Bool
  char  : Byte
deriving DecidableEq, Repr, Inhabited

/-- DEC's Reading output port (10_state.md R32). `pfx_idx` and `unit_idx` are table positions; that they fit their
`PFX_IDX_W` and `UNIT_IDX_W` wires (30_encoding.md R76) is a theorem, since the widths follow the tables. -/
structure DecPort where
  rdValid   : Bool
  rdTs      : TS
  lanes     : Vector Lane 4
  pfxValid  : Bool
  pfxIdx    : Nat
  unitValid : Bool
  unitIdx   : Nat
  optVec    : BitVec 7
deriving DecidableEq, Repr, Inhabited

/-- A Reading (10_state.md R37). -/
structure Reading where
  timestamp  : TS
  digits     : List Byte
  unitPrefix : Option String
  unit       : Option String
  options    : List String
deriving DecidableEq, Repr, Inhabited

end Sys2Proof.Machine
end

