-- ==== Sys2Proof/Machine/Operands.lean ====
section
/-! DEFINITION. The operand forms: the fields of a byte, the nibbles of a frame word, and the DigitBytes (20_memory.md R46 to R48, 30_encoding.md R68 to R73). -/

namespace Sys2Proof.Machine

open Sys2Proof

/-- The byte `{idx, dat}` of a byte class (30_encoding.md R68, R70). -/
def mkByte (idx dat : Nibble) : Byte := idx ++ dat

/-- The frame-index nibble `b[7:4]` (20_memory.md R46). -/
def byteIdx (b : Byte) : Nibble := b.extractLsb' 4 4

/-- The data nibble `b[3:0]` (20_memory.md R46). -/
def byteDat (b : Byte) : Nibble := b.extractLsb' 0 4

/-- Data nibble `d[k] = F[55-4k : 52-4k]` of a frame word (30_encoding.md R71). -/
def nibbleAt (F : FrameWord) (k : Fin 14) : Nibble := F.extractLsb' (52 - 4 * k.val) 4

/-- The frame word of a window: the 14 data nibbles, `d[0]` most significant (30_encoding.md R71, 40_synchronizer.md R91). -/
def packFrame (w : Vector Slot 14) : FrameWord :=
  byteDat w[0].b ++ byteDat w[1].b ++ byteDat w[2].b ++ byteDat w[3].b ++ byteDat w[4].b ++ byteDat w[5].b
    ++ byteDat w[6].b ++ byteDat w[7].b ++ byteDat w[8].b ++ byteDat w[9].b ++ byteDat w[10].b
    ++ byteDat w[11].b ++ byteDat w[12].b ++ byteDat w[13].b

/-- The offset of digit pair `i`'s more significant nibble, `2i+1` (41_decoder.md R106). -/
def pairHigh (i : Fin 4) : Fin 14 := ⟨2 * i.val + 1, by omega⟩

/-- The offset of digit pair `i`'s less significant nibble, `2i+2` (41_decoder.md R106). -/
def pairLow (i : Fin 4) : Fin 14 := ⟨2 * i.val + 2, by omega⟩

/-- `DB[i] = (d[2i+1] << 4) | d[2i+2]` (20_memory.md R47, 41_decoder.md R106). -/
def digitByte (F : FrameWord) (i : Fin 4) : Byte := nibbleAt F (pairHigh i) ++ nibbleAt F (pairLow i)

end Sys2Proof.Machine
end

