-- ==== Sys2Proof/Machine/Flags.lean ====
section
/-! DEFINITION. Every combinational flag of 10_state.md R34 (digit flags, known bits, valid bits, option bits) and the predicates behind them. `frame_valid` and `term`, the stored ones, are written by the operations of Machine/Ops.lean. -/

namespace Sys2Proof.Machine

open Sys2Proof

/-- `dig_flag = DB[7]` (41_decoder.md R107). -/
def digFlag (db : Byte) : Bool := db.getLsbD 7

/-- `dig_pat = DB & 0x7F` (41_decoder.md R108). -/
def digPat (db : Byte) : Pattern := db.extractLsb' 0 7

/-- `SEG_TABLE[p]`, `none` for an unmapped pattern (20_memory.md R49). -/
def segEntry (T : Tables) (p : Pattern) : Option Byte := T.seg.lookup p

/-- `SEG_TABLE[p].known` (20_memory.md R49, 41_decoder.md R108). -/
def segKnown (T : Tables) (p : Pattern) : Bool := (segEntry T p).isSome

/-- `ROM_SEG(p)`: the mapped character, or `?` = 0x3F (20_memory.md R49). -/
def romSeg (T : Tables) (p : Pattern) : Byte := (segEntry T p).getD 0x3F#8

/-- `KMATCH(e, d) = (d[e.off] & e.mask) != 0` (41_decoder.md R111). -/
def keyMatch (e : KeyEntry) (F : FrameWord) : Bool := nibbleAt F e.off &&& e.mask != 0#4

/-- One turn of LAST_MATCH's loop, at table position `j` (41_decoder.md R112). -/
def lastMatchFrom (F : FrameWord) (j : Nat) (acc : Bool × Nat) : List KeyEntry → Bool × Nat
  | [] => acc
  | e :: es => lastMatchFrom F (j + 1) (if keyMatch e F then (true, j) else acc) es

/-- `LAST_MATCH(T, d)`: `valid`, and the position of the last match in iteration order, 0 when there is none
(41_decoder.md R112; 00_scope.md R13 fixes LAST, see assumption 6). -/
def lastMatch (es : List KeyEntry) (F : FrameWord) : Bool × Nat := lastMatchFrom F 0 (false, 0) es

/-- `opt_vec[j] = KMATCH(OPTION_TABLE[j], d)`, bit 0 for the first entry (41_decoder.md R115, 30_encoding.md R76). -/
def optionBits (T : Tables) (F : FrameWord) : BitVec 7 :=
  BitVec.ofBool (keyMatch T.opt[6] F) ++ BitVec.ofBool (keyMatch T.opt[5] F) ++ BitVec.ofBool (keyMatch T.opt[4] F)
    ++ BitVec.ofBool (keyMatch T.opt[3] F) ++ BitVec.ofBool (keyMatch T.opt[2] F)
    ++ BitVec.ofBool (keyMatch T.opt[1] F) ++ BitVec.ofBool (keyMatch T.opt[0] F)

end Sys2Proof.Machine
end

