-- ==== Sys2Proof/Machine/Dec.lean ====
section
/-! DEFINITION. The Frame Decoder as a pure function of a frame word (41_decoder.md): the lanes, the output port, the digits string, the options and the Reading. -/

namespace Sys2Proof.Machine

open Sys2Proof

/-- Digit lane `i` (41_decoder.md R105 to R108, R121): it reads only `d[2i+1]` and `d[2i+2]`. -/
def decLane (T : Tables) (F : FrameWord) (i : Fin 4) : Lane where
  flag  := digFlag (digitByte F i)
  pat   := digPat (digitByte F i)
  known := segKnown T (digPat (digitByte F i))
  char  := romSeg T (digPat (digitByte F i))

/-- DEC's outputs for the frame word `F`, the frame's timestamp and `frame_valid` (41_decoder.md R105, 10_state.md R32). -/
def decPort (T : Tables) (F : FrameWord) (ts : TS) (valid : Bool) : DecPort where
  rdValid   := valid
  rdTs      := ts
  lanes     := #v[decLane T F 0, decLane T F 1, decLane T F 2, decLane T F 3]
  pfxValid  := (lastMatch T.pfx F).1
  pfxIdx    := (lastMatch T.pfx F).2
  unitValid := (lastMatch T.unit F).1
  unitIdx   := (lastMatch T.unit F).2
  optVec    := optionBits T F

/-- The text of one lane: `mark` if its flag is set, then its character (41_decoder.md R109). -/
def laneText (mark : Byte) (l : Lane) : List Byte := if l.flag then [mark, l.char] else [l.char]

/-- `DIGITS`: `-` (0x2D) marks lane 0 and `.` (0x2E) lanes 1 to 3, leftmost first (41_decoder.md R109, 00_scope.md R15). -/
def digitsText (lanes : Vector Lane 4) : List Byte :=
  laneText 0x2D#8 lanes[0] ++ laneText 0x2E#8 lanes[1] ++ laneText 0x2E#8 lanes[2] ++ laneText 0x2E#8 lanes[3]

/-- One turn of OPTIONS' loop, at table position `j` with the list `o` so far (41_decoder.md R114). -/
def optionsFrom (bits : BitVec 7) (j : Nat) (o : List String) : List KeyEntry → List String
  | [] => o
  | e :: es => optionsFrom bits (j + 1) (if bits.getLsbD j && !o.contains e.sym then o ++ [e.sym] else o) es

/-- `OPTIONS(opt_vec)` (41_decoder.md R114). -/
def optionNames (T : Tables) (bits : BitVec 7) : List String := optionsFrom bits 0 [] T.opt.toList

/-- `valid ? TABLE[idx].sym : none` (41_decoder.md R112, R113, 30_encoding.md R76). -/
def symbolAt (es : List KeyEntry) (valid : Bool) (idx : Nat) : Option String :=
  if valid then es[idx]?.map KeyEntry.sym else none

/-- The Reading that the output port carries (41_decoder.md R116, 10_state.md R32). -/
def readingOf (T : Tables) (p : DecPort) : Reading where
  timestamp  := p.rdTs
  digits     := digitsText p.lanes
  unitPrefix := symbolAt T.pfx p.pfxValid p.pfxIdx
  unit       := symbolAt T.unit p.unitValid p.unitIdx
  options    := optionNames T p.optVec

/-- `decode(frame) -> Reading` (41_decoder.md R105). -/
def decodeReading (T : Tables) (f : Frame) : Reading := readingOf T (decPort T f.word f.ts true)

end Sys2Proof.Machine
end

