-- ==== Sys2Proof/Machine/State.lean ====
section
/-! DEFINITION. The state of MI23FSD as plain data, the reasons a step can stop, and the state after reset (10_state.md R20 to R39). -/

namespace Sys2Proof.Machine

open Sys2Proof

/-- Everything the spec gives the machine, its ports among it. -/
structure State where
  /-- `W[0]` to `W[13]`, `W[13]` the newest (10_state.md R21) -/
  window     : Vector Slot 14
  /-- `cnt`, 4 bits (10_state.md R22) -/
  cnt        : BitVec 4
  /-- `term` (10_state.md R24) -/
  term       : TermStatus
  /-- `frame_valid` (10_state.md R25) -/
  frameValid : Bool
  /-- `frame_d` (10_state.md R25) -/
  frameD     : FrameWord
  /-- `frame_ts` (10_state.md R25) -/
  frameTs    : TS
  /-- DEC's Reading output port, as the last DECODE drove it (10_state.md R32). DEDUCED (assumption 7): the wires stand
  in State, so that DECODE's effect can be seen; every step drives them anew. -/
  dec        : DecPort
  /-- the input word on the input port, sampled by the next step (10_state.md R29, 30_encoding.md R66) -/
  inWord     : InputWord
  /-- `in_ts` on the input port (10_state.md R29) -/
  inTs       : TS
  /-- what the byte source will present in the steps after the next (60_exceptions.md R136). DESIGN CHOICE (assumption 8) -/
  pending    : List InputBeat
  /-- the contents of the decode-table ROMs (20_memory.md R49 to R51); no operation writes them (R50). DEDUCED (assumption 3) -/
  tables     : Tables
  /-- the model's own: how many free values have been drawn (assumption 4) -/
  freeNext   : Nat
deriving DecidableEq, Repr

/-- Why the machine would stop with a fault. There is no such reason: "Nothing the host does can make MI23FSD fault or stall"
(60_exceptions.md R136), and no encoding traps (30_encoding.md R78). The terminal conditions are next states (R127). -/
inductive Fault
deriving DecidableEq, Repr

/-- Why the model would refuse an operation. -/
inductive Refusal where
  /-- Raised by exec's arm of an instruction without a meaning. Safe: nothing is claimed of such a step. Every instruction has
  its meaning, so no arm raises it. -/
  | notModelled (mnemonic : String)
deriving DecidableEq, Repr

/-- `in_ready`, constant 1 (10_state.md R33). -/
def State.inReady (_ : State) : Bool := true

/-- `term_code` (10_state.md R33). -/
def State.termCode (s : State) : BitVec 2 := s.term.code

/-- The machine right after reset (10_state.md R39, 70_reset_and_hazards.md R145): `cnt = 0`, `term = RUN`, `frame_valid = 0`.
DESIGN CHOICE (assumption 9): the window, `frame_d` and `frame_ts`, which R39 leaves unspecified, are zero here, the input port
holds the IDLE word and nothing is pending. The DEC port is R39's function of the frame register. -/
def State.reset : State where
  window     := Vector.replicate 14 ⟨⟨0⟩, 0#8⟩
  cnt        := 0#4
  term       := .run
  frameValid := false
  frameD     := 0#56
  frameTs    := ⟨0⟩
  dec        := decPort Config.tables 0#56 ⟨0⟩ false
  inWord     := 0#12
  inTs       := ⟨0⟩
  pending    := []
  tables     := Config.tables
  freeNext   := 0

end Sys2Proof.Machine
end

