-- ==== Sys2Proof/Machine/Ops.lean ====
section
/-! DEFINITION. The shared operations: PUSH, MATCH, emit and clear (40_synchronizer.md R85 to R92), terminal entry and the reset that leaves it (R97, 60_exceptions.md R127), and the sampling of the input port. -/

namespace Sys2Proof.Machine

open Sys2Proof

/-- PUSH's `W'`: the slots shift down by one and the new pair enters at slot 13 (40_synchronizer.md R85). -/
def pushWindow (w : Vector Slot 14) (x : Slot) : Vector Slot 14 :=
  #v[w[1], w[2], w[3], w[4], w[5], w[6], w[7], w[8], w[9], w[10], w[11], w[12], w[13], x]

/-- PUSH's `cnt' = min(cnt + 1, 14)` (40_synchronizer.md R85). -/
def bumpCount (c : BitVec 4) : BitVec 4 := BitVec.ofNat 4 (min (c.toNat + 1) 14)

/-- The frame-index nibbles of a window read 1, 2, ..., 14 in order (40_synchronizer.md R90). -/
abbrev IndexesInOrder (w : Vector Slot 14) : Prop := ∀ k : Fin 14, byteIdx w[k].b = BitVec.ofNat 4 (k.val + 1)

/-- `MATCH(W', cnt')` (40_synchronizer.md R90). -/
abbrev Matches (w : Vector Slot 14) (c : BitVec 4) : Prop := c = 14#4 ∧ byteIdx w[13].b = 0xE#4 ∧ IndexesInOrder w

/-- `frame_valid <- 0`, and nothing else (40_synchronizer.md R93, R98). -/
def clearFrameValid (s : State) : State := { s with frameValid := false }

/-- The window after pushing the byte `b` with the port's `in_ts`. -/
def pushedWindow (b : Byte) (s : State) : Vector Slot 14 := pushWindow s.window ⟨s.inTs, b⟩

/-- `W <- W'; cnt <- cnt'; frame_valid <- 0` (40_synchronizer.md R86). -/
def retain (b : Byte) (s : State) : State :=
  { s with window := pushedWindow b s, cnt := bumpCount s.cnt, frameValid := false }

/-- Emit the Frame of `W'` (40_synchronizer.md R91) and clear: `W <- W'; cnt <- 0` (R88, R92).
The slots are left stale, as R88 and 92_eei_decisions.md D23 have it (assumption 10). -/
def recognise (b : Byte) (s : State) : State :=
  { s with window := pushedWindow b s, cnt := 0#4, frameValid := true,
           frameD := packFrame (pushedWindow b s), frameTs := (pushedWindow b s)[0].ts }

/-- A byte that never triggers the check (40_synchronizer.md R86, R87, R89); ignored in the terminal state (R98). -/
def absorb (b : Byte) (s : State) : State :=
  match s.term with
  | .run => retain b s
  | .eos | .ioErr => clearFrameValid s

/-- A terminator: push, check, emit and clear are one step (40_synchronizer.md R88); ignored in the terminal state (R98). -/
def absorbTerminator (b : Byte) (s : State) : State :=
  match s.term with
  | .run => if Matches (pushedWindow b s) (bumpCount s.cnt) then recognise b s else retain b s
  | .eos | .ioErr => clearFrameValid s

/-- `raise Terminal(code)`: `term <- code; frame_valid <- 0` and nothing else (60_exceptions.md R127). It is what this machine
has for taking an exception: it saves nothing and has no handler. -/
def raiseTerminal (code : TermStatus) (s : State) : State := { s with term := code, frameValid := false }

/-- A terminal event: it enters the terminal state from RUN (40_synchronizer.md R94, R96); in the terminal state the first code
is kept (R98). -/
def endStream (code : TermStatus) (s : State) : State :=
  match s.term with
  | .run => raiseTerminal code s
  | .eos | .ioErr => clearFrameValid s

/-- Slot contents that nothing constrains, from the free values numbered `n` on (10_state.md R39). -/
def freeWindow (n : Nat) : Vector Slot 14 := Vector.ofFn fun k => ⟨Config.freeStamp (n + k.val), Config.freeByte (n + k.val)⟩

/-- RST, the only return from the terminal state (40_synchronizer.md R97, 60_exceptions.md R129): `cnt <- 0; term <- RUN;
frame_valid <- 0`. The window, `frame_d` and `frame_ts` are unspecified (10_state.md R39): free values (assumption 4). -/
def takeReset (s : State) : State :=
  { s with cnt := 0#4, term := .run, frameValid := false, window := freeWindow s.freeNext,
           frameD := Config.freeFrameWord s.freeNext, frameTs := Config.freeStamp (s.freeNext + 14),
           freeNext := s.freeNext + 15 }

/-- DEC driven with the frame word `F` (41_decoder.md R105): only the Reading output port changes, `rd_valid = frame_valid` and
`rd_ts = frame_ts` (10_state.md R32). -/
def driveDec (F : FrameWord) (s : State) : State := { s with dec := decPort s.tables F s.frameTs s.frameValid }

/-- The event on the input port (10_state.md R30). -/
def fetchEvent (s : State) : Instr := decodeInput s.inWord

/-- DEC's operation in this step: DECODE of `frame_d` (30_encoding.md R83). -/
def fetchDecode (s : State) : Instr := decodeFrameWord s.frameD

/-- The port after it was sampled (70_reset_and_hazards.md R150): the byte source's next beat, or the IDLE word when it has
none to present (40_synchronizer.md R93; assumption 8). -/
def advanceInput (s : State) : State :=
  match s.pending with
  | [] => { s with inWord := 0#12 }
  | x :: xs => { s with inWord := x.word, inTs := x.ts, pending := xs }

/-- Two actions in sequence within one step; a stop of the first is the stop of both. -/
def andThen (o : Host.Outcome State Fault Refusal) (k : State → Host.Outcome State Fault Refusal) :
    Host.Outcome State Fault Refusal :=
  match o with
  | .next s => k s
  | .fault r => .fault r
  | .refused r => .refused r

/-- SYNC's Frame output (10_state.md R31): the frame register while `frame_valid = 1`. -/
def State.frame (s : State) : Option Frame := if s.frameValid then some ⟨s.frameD, s.frameTs⟩ else none

/-- The Reading the consumer takes (10_state.md R32, 41_decoder.md R118): there is one exactly while `rd_valid = 1`. -/
def State.reading (s : State) : Option Reading := if s.dec.rdValid then some (readingOf s.tables s.dec) else none

/-- The input word on the port, replaced. -/
def State.withInputWord (w : InputWord) (s : State) : State := { s with inWord := w }

/-- An IDLE word on the port and `F` in the frame register, so that the next step's DECODE is that of `F`. -/
def State.withFrameWord (F : FrameWord) (s : State) : State := { s with inWord := 0#12, frameD := F }

end Sys2Proof.Machine
end

