-- ==== Sys2Proof/Machine/Bytes.lean ====
section
/-! DEFINITION. The meanings of the 16 byte classes (40_synchronizer.md R86 to R89). Each byte is rebuilt from its class index and its data nibble. -/

namespace Sys2Proof.Machine

open Sys2Proof

/-- NOISE0 (40_synchronizer.md R86). -/
def execNoise0 (dat : Nibble) (s : State) : Host.Outcome State Fault Refusal := .next (absorb (mkByte 0x0#4 dat) s)

/-- FIDX1 (40_synchronizer.md R87). -/
def execFidx1 (dat : Nibble) (s : State) : Host.Outcome State Fault Refusal := .next (absorb (mkByte 0x1#4 dat) s)

/-- FIDX2 (40_synchronizer.md R87). -/
def execFidx2 (dat : Nibble) (s : State) : Host.Outcome State Fault Refusal := .next (absorb (mkByte 0x2#4 dat) s)

/-- FIDX3 (40_synchronizer.md R87). -/
def execFidx3 (dat : Nibble) (s : State) : Host.Outcome State Fault Refusal := .next (absorb (mkByte 0x3#4 dat) s)

/-- FIDX4 (40_synchronizer.md R87). -/
def execFidx4 (dat : Nibble) (s : State) : Host.Outcome State Fault Refusal := .next (absorb (mkByte 0x4#4 dat) s)

/-- FIDX5 (40_synchronizer.md R87). -/
def execFidx5 (dat : Nibble) (s : State) : Host.Outcome State Fault Refusal := .next (absorb (mkByte 0x5#4 dat) s)

/-- FIDX6 (40_synchronizer.md R87). -/
def execFidx6 (dat : Nibble) (s : State) : Host.Outcome State Fault Refusal := .next (absorb (mkByte 0x6#4 dat) s)

/-- FIDX7 (40_synchronizer.md R87). -/
def execFidx7 (dat : Nibble) (s : State) : Host.Outcome State Fault Refusal := .next (absorb (mkByte 0x7#4 dat) s)

/-- FIDX8 (40_synchronizer.md R87). -/
def execFidx8 (dat : Nibble) (s : State) : Host.Outcome State Fault Refusal := .next (absorb (mkByte 0x8#4 dat) s)

/-- FIDX9 (40_synchronizer.md R87). -/
def execFidx9 (dat : Nibble) (s : State) : Host.Outcome State Fault Refusal := .next (absorb (mkByte 0x9#4 dat) s)

/-- FIDX10 (40_synchronizer.md R87). -/
def execFidx10 (dat : Nibble) (s : State) : Host.Outcome State Fault Refusal := .next (absorb (mkByte 0xA#4 dat) s)

/-- FIDX11 (40_synchronizer.md R87). -/
def execFidx11 (dat : Nibble) (s : State) : Host.Outcome State Fault Refusal := .next (absorb (mkByte 0xB#4 dat) s)

/-- FIDX12 (40_synchronizer.md R87). -/
def execFidx12 (dat : Nibble) (s : State) : Host.Outcome State Fault Refusal := .next (absorb (mkByte 0xC#4 dat) s)

/-- FIDX13 (40_synchronizer.md R87). -/
def execFidx13 (dat : Nibble) (s : State) : Host.Outcome State Fault Refusal := .next (absorb (mkByte 0xD#4 dat) s)

/-- FTERM (40_synchronizer.md R88). -/
def execFterm (dat : Nibble) (s : State) : Host.Outcome State Fault Refusal := .next (absorbTerminator (mkByte 0xE#4 dat) s)

/-- NOISE15 (40_synchronizer.md R89). -/
def execNoise15 (dat : Nibble) (s : State) : Host.Outcome State Fault Refusal := .next (absorb (mkByte 0xF#4 dat) s)

end Sys2Proof.Machine
end

