-- ==== Sys2Proof/Machine/DecodeOp.lean ====
section
/-! DEFINITION. The meaning of DECODE (41_decoder.md R105). -/

namespace Sys2Proof.Machine

open Sys2Proof

/-- DECODE of a frame word, with `frame_ts` as its timestamp (41_decoder.md R105). It never fails (R117). -/
def execDecode (F : FrameWord) (s : State) : Host.Outcome State Fault Refusal := .next (driveDec F s)

end Sys2Proof.Machine
end

