-- ==== Sys2Proof/Machine/Events.lean ====
section
/-! DEFINITION. The meanings of the events that carry no byte: IDLE, EOS, IOERR and RST (40_synchronizer.md R93 to R97). -/

namespace Sys2Proof.Machine

open Sys2Proof

/-- IDLE (40_synchronizer.md R93). -/
def execIdle (s : State) : Host.Outcome State Fault Refusal := .next (clearFrameValid s)

/-- EOS (40_synchronizer.md R94). -/
def execEos (s : State) : Host.Outcome State Fault Refusal := .next (endStream .eos s)

/-- IOERR (40_synchronizer.md R96). -/
def execIoerr (s : State) : Host.Outcome State Fault Refusal := .next (endStream .ioErr s)

/-- RST (40_synchronizer.md R97). -/
def execRst (s : State) : Host.Outcome State Fault Refusal := .next (takeReset s)

end Sys2Proof.Machine
end

