-- ==== Sys2Proof/Machine/Dispatch.lean ====
section
/-! DEFINITION. One arm per operation (30_encoding.md R80). -/

namespace Sys2Proof.Machine

open Sys2Proof

def exec (i : Instr) (s : State) : Host.Outcome State Fault Refusal :=
  match i with
  | .idle => Sys2Proof.Machine.execIdle s
  | .noise0 dat => Sys2Proof.Machine.execNoise0 dat s
  | .fidx1 dat => Sys2Proof.Machine.execFidx1 dat s
  | .fidx2 dat => Sys2Proof.Machine.execFidx2 dat s
  | .fidx3 dat => Sys2Proof.Machine.execFidx3 dat s
  | .fidx4 dat => Sys2Proof.Machine.execFidx4 dat s
  | .fidx5 dat => Sys2Proof.Machine.execFidx5 dat s
  | .fidx6 dat => Sys2Proof.Machine.execFidx6 dat s
  | .fidx7 dat => Sys2Proof.Machine.execFidx7 dat s
  | .fidx8 dat => Sys2Proof.Machine.execFidx8 dat s
  | .fidx9 dat => Sys2Proof.Machine.execFidx9 dat s
  | .fidx10 dat => Sys2Proof.Machine.execFidx10 dat s
  | .fidx11 dat => Sys2Proof.Machine.execFidx11 dat s
  | .fidx12 dat => Sys2Proof.Machine.execFidx12 dat s
  | .fidx13 dat => Sys2Proof.Machine.execFidx13 dat s
  | .fterm dat => Sys2Proof.Machine.execFterm dat s
  | .noise15 dat => Sys2Proof.Machine.execNoise15 dat s
  | .eos => Sys2Proof.Machine.execEos s
  | .ioerr => Sys2Proof.Machine.execIoerr s
  | .rst => Sys2Proof.Machine.execRst s
  | .decode word => Sys2Proof.Machine.execDecode word s

end Sys2Proof.Machine
end

