-- ==== Sys2Proof/Machine/Step.lean ====
section
/-! DEFINITION. One step of MI23FSD (00_scope.md R2, R19): SYNC consumes the event on the input port, DEC decodes the frame register, and the byte source presents its next beat. -/

namespace Sys2Proof.Machine

open Sys2Proof

/-- One step: the two units in sequence (00_scope.md R2), DEC in the same step as SYNC (R7). -/
def step (s : State) : Host.Outcome State Fault Refusal :=
  andThen (exec (fetchEvent s) s) fun s1 => andThen (exec (fetchDecode s1) s1) fun s2 => .next (advanceInput s2)

/-- The state whose next step runs the operation of a table word: an input word goes on the input port; a frame word goes into
the frame register behind an IDLE word, since DEC runs in every step and on `frame_d` only (30_encoding.md R83; assumption 11). -/
def State.withFetchWord (s : State) (nbits w : Nat) : State :=
  if nbits ≤ 16 then s.withInputWord (BitVec.ofNat 12 w) else s.withFrameWord (BitVec.ofNat 56 w)

end Sys2Proof.Machine
end

