-- ==== Sys2Proof/Machine/Stream.lean ====
section
/-! DEFINITION. The stream notation in which programs for MI23FSD are written, and the beats a program stands for (30_encoding.md R81, R82). -/

namespace Sys2Proof.Machine

open Sys2Proof

/-- A line that is one event (30_encoding.md R81). `B hh @ t` gives its timestamp; without it the position in the program is taken. -/
inductive StreamEvent where
  | byte (b : Byte) (ts : Option Nat)
  | idle
  | eos
  | err
  | rst
deriving DecidableEq, Repr

/-- A line of a program: an event, or one of the pseudo-operations FRAME and FILL (30_encoding.md R82). -/
inductive StreamLine where
  | event (e : StreamEvent)
  | frame (ns : Vector Nibble 14) (ts : Option Nat)
  | fill (b : Byte) (k : Nat)
deriving DecidableEq, Repr

/-- The events a line expands to (30_encoding.md R82): FRAME to its 14 bytes `{k+1, nk}` at `t + k`, FILL to `k` copies. -/
def StreamLine.expand : StreamLine → List StreamEvent
  | .event e => [e]
  | .frame ns ts => (List.finRange 14).map fun k => .byte (mkByte (BitVec.ofNat 4 (k.val + 1)) ns[k]) (ts.map (· + k.val))
  | .fill b k => List.replicate k (.byte b none)

/-- The beat of the event at a position (30_encoding.md R81). R81 gives a timestamp to `B` lines only: the position as `in_ts` of an
IDLE, EOS, ERR or RST line is the model's choice (DESIGN CHOICE, assumption 16; unsafe for a claim about `in_ts` itself at such a
line). Those events ignore it. -/
def StreamEvent.beatAt (pos : Nat) : StreamEvent → InputBeat
  | .byte b ts => ⟨0x1#4 ++ b, ⟨ts.getD pos⟩⟩
  | .idle => ⟨0x000#12, ⟨pos⟩⟩
  | .eos => ⟨0x200#12, ⟨pos⟩⟩
  | .err => ⟨0x400#12, ⟨pos⟩⟩
  | .rst => ⟨0x800#12, ⟨pos⟩⟩

/-- The beats of a list of events, the first at position `pos`. -/
def beatsFrom (pos : Nat) : List StreamEvent → List InputBeat
  | [] => []
  | e :: es => e.beatAt pos :: beatsFrom (pos + 1) es

/-- The beats of a program (30_encoding.md R81). -/
def assemble (lines : List StreamLine) : List InputBeat := beatsFrom 0 (lines.flatMap StreamLine.expand)

end Sys2Proof.Machine
end

