-- ==== Sys2Proof/Safety.lean ====
section
/-! DEFINITION. The terms claims use: runs over the byte source's beats, where they are over and what is observed of them, the invariant of the machine, and the spec's own other descriptions of the synchronizer (the source's buffer, a ring of any capacity, the buffer that is never cleared, the run position). -/

namespace Sys2Proof.Machine

open Sys2Proof

/-- The byte a byte class stands for: its frame-index nibble and its data nibble (30_encoding.md R69); `none` for the other operations. -/
def carried : Instr → Option (Nibble × Nibble)
  | .noise0 dat => some (0x0#4, dat)
  | .fidx1 dat => some (0x1#4, dat)
  | .fidx2 dat => some (0x2#4, dat)
  | .fidx3 dat => some (0x3#4, dat)
  | .fidx4 dat => some (0x4#4, dat)
  | .fidx5 dat => some (0x5#4, dat)
  | .fidx6 dat => some (0x6#4, dat)
  | .fidx7 dat => some (0x7#4, dat)
  | .fidx8 dat => some (0x8#4, dat)
  | .fidx9 dat => some (0x9#4, dat)
  | .fidx10 dat => some (0xA#4, dat)
  | .fidx11 dat => some (0xB#4, dat)
  | .fidx12 dat => some (0xC#4, dat)
  | .fidx13 dat => some (0xD#4, dat)
  | .fterm dat => some (0xE#4, dat)
  | .noise15 dat => some (0xF#4, dat)
  | .idle | .eos | .ioerr | .rst | .decode _ => none

/-- The input events of 10_state.md R30. -/
inductive Event where
  | idle
  | byte (x : Slot)
  | eos
  | ioErr
  | rst
deriving DecidableEq, Repr

/-- The event a beat stands for, straight from the bits by the priority of 30_encoding.md R67 (the decoder is not used). -/
def eventOf (x : InputBeat) : Event :=
  match x.word.getLsbD 11, x.word.getLsbD 10, x.word.getLsbD 9, x.word.getLsbD 8 with
  | true, _, _, _ => .rst
  | false, true, _, _ => .ioErr
  | false, false, true, _ => .eos
  | false, false, false, true => .byte ⟨x.ts, x.word.setWidth 8⟩
  | false, false, false, false => .idle

/-- The pair a BYTE event carries. -/
def Event.slot? : Event → Option Slot
  | .byte x => some x
  | .idle | .eos | .ioErr | .rst => none

/-- The BYTE events among the beats, in order. -/
def bytesOf (xs : List InputBeat) : List Slot := xs.filterMap fun x => (eventOf x).slot?

/-- Only IDLE and BYTE events: no reset and no terminal event. -/
abbrev BytesAndIdles (xs : List InputBeat) : Prop := ∀ x ∈ xs, eventOf x = .idle ∨ (eventOf x).slot?.isSome = true

/-- The byte source presents `x` for the next step, in place of what stood on the port. -/
def State.present (x : InputBeat) (s : State) : State := { s with inWord := x.word, inTs := x.ts }

/-- What the consumer and the host see after a step (60_exceptions.md R130): the Frame, the Reading, `term_code`. -/
structure Obs where
  frame    : Option Frame
  reading  : Option Reading
  termCode : BitVec 2
deriving DecidableEq, Repr

/-- The outputs in a state. -/
def State.obs (s : State) : Obs := ⟨s.frame, s.reading, s.termCode⟩

/-- The steps over a list of beats, with what is seen after each. It goes on past a terminal event and through RST, so that
claims can speak of what follows them; a run that ends where R137 says it is over is `ToEnd`. A step that stops has no `Run`. -/
inductive Run : State → List InputBeat → List Obs → State → Prop where
  | done (s : State) : Run s [] [] s
  | beat {s s1 t : State} {x : InputBeat} {xs : List InputBeat} {os : List Obs}
      (first : step (s.present x) = .next s1) (rest : Run s1 xs os t) : Run s (x :: xs) (s1.obs :: os) t

/-- The terminal state is reached: the first way a run is over (60_exceptions.md R137). -/
abbrev State.Over (s : State) : Prop := s.term ≠ .run

/-- A run that stands at `s` with the events `rest` of a finite sequence still to come is over: the terminal state is reached, or
the sequence has been consumed (60_exceptions.md R137). -/
abbrev RunOver (s : State) (rest : List InputBeat) : Prop := s.Over ∨ rest = []

/-- The run over a finite sequence of events, up to where it is over (60_exceptions.md R137): events after a terminal one are no
part of it. -/
inductive ToEnd : State → List InputBeat → List Obs → State → Prop where
  | finished {s : State} {xs : List InputBeat} (h : RunOver s xs) : ToEnd s xs [] s
  | beat {s s1 t : State} {x : InputBeat} {xs : List InputBeat} {os : List Obs} (h : ¬RunOver s (x :: xs))
      (first : step (s.present x) = .next s1) (rest : ToEnd s1 xs os t) : ToEnd s (x :: xs) (s1.obs :: os) t

/-- The infinite run over an infinite sequence of events (60_exceptions.md R137): `tr n` is the state before step `n`, every
event takes its step, and the run is never over. -/
structure InfiniteRun (s : State) (xs : Nat → InputBeat) (tr : Nat → State) : Prop where
  start : tr 0 = s
  next  : ∀ n, step ((tr n).present (xs n)) = .next (tr (n + 1))
  goes  : ∀ n, ¬(tr n).Over

/-- The event is a terminal condition (60_exceptions.md R126). -/
abbrev EndsStream (x : InputBeat) : Prop := eventOf x = .eos ∨ eventOf x = .ioErr

/-- An output of a run: the step index, the Frame and the Reading (60_exceptions.md R137). -/
structure Output where
  index   : Nat
  frame   : Frame
  reading : Reading
deriving DecidableEq, Repr

/-- The output of step `n`, where what is seen after it holds a Frame and a Reading. -/
def Obs.output (n : Nat) (o : Obs) : Option Output := o.frame.bind fun f => o.reading.map fun r => ⟨n, f, r⟩

/-- The outputs of the steps from number `n` on. -/
def outputsFrom (n : Nat) : List Obs → List Output
  | [] => []
  | o :: os => (o.output n).toList ++ outputsFrom (n + 1) os

/-- The observation of a run that is over: its outputs in order, and the final `term_code` (60_exceptions.md R137). -/
structure RunObservation where
  outputs  : List Output
  termCode : BitVec 2
deriving DecidableEq, Repr

/-- The observation of a run that showed `os` and ended in `t`. -/
def observation (os : List Obs) (t : State) : RunObservation := ⟨outputsFrom 0 os, t.termCode⟩

/-- The machine as it stands after a reset, as far as the spec says (10_state.md R39): an empty window, in RUN. -/
def State.Fresh (s : State) : Prop := s.cnt = 0#4 ∧ s.term = .run

/-- The post-reset state from which a run starts (10_state.md R39, R137): every value the spec gives it. -/
def State.PostReset (s : State) : Prop := s.Fresh ∧ s.frameValid = false

/-- The invariant of the machine: `cnt` is 0 to 14 (10_state.md R22); a Frame is out only in RUN with the window cleared
(40_synchronizer.md R92, 60_exceptions.md R131); the Reading port is the combinational function of the frame register
(10_state.md R32); the tables are admissible (20_memory.md R59). -/
structure State.Inv (s : State) : Prop where
  count  : s.cnt.toNat ≤ 14
  pulse  : s.frameValid = true → s.cnt = 0#4 ∧ s.term = .run
  port   : s.dec = decPort s.tables s.frameD s.frameTs s.frameValid
  tables : s.tables.admissible = true

/-- Nibbles packed into a frame word, the first most significant: a description of 30_encoding.md R71 by arithmetic. -/
def packNibbles (ds : List Nibble) : FrameWord := ds.foldl (fun F d => (F <<< 4) ||| d.setWidth 56) 0#56

/-- The Frame of a list of pairs: their data nibbles and the first one's timestamp (10_state.md R36). -/
def frameOf : List Slot → Option Frame
  | [] => none
  | x :: xs => some ⟨packNibbles ((x :: xs).map fun y => byteDat y.b), x.ts⟩

/-- The frame-index nibbles 1 to 14 in order. -/
def indexRun : List Nibble := [1, 2, 3, 4, 5, 6, 7, 8, 9, 10, 11, 12, 13, 14]

/-- The frame-index nibbles of a list of pairs. -/
def indexes (xs : List Slot) : List Nibble := xs.map fun x => byteIdx x.b

/-- The last `n` entries of a list. -/
def lastEntries {α : Type} (n : Nat) (L : List α) : List α := L.drop (L.length - n)

/-- Another description of the synchronizer: a memory, its value after reset, and what a BYTE event does to it. -/
structure Detector (M : Type) where
  empty  : M
  onByte : M → Slot → M × Option Frame

/-- The Frames a detector emits over a list of beats, one entry a step. `ended` says that a terminal event has come;
every event but RST is then ignored (40_synchronizer.md R98). -/
def Detector.frames {M : Type} (D : Detector M) : M → Bool → List InputBeat → List (Option Frame)
  | _, _, [] => []
  | m, ended, x :: xs =>
    match eventOf x with
    | .idle => none :: D.frames m ended xs
    | .eos | .ioErr => none :: D.frames m true xs
    | .rst => none :: D.frames D.empty false xs
    | .byte y =>
      if ended then none :: D.frames m true xs
      else (D.onByte m y).2 :: D.frames (D.onByte m y).1 false xs

/-- The list has a terminator as its newest entry, at least 14 entries, and 1 to 14 as its last indexes (40_synchronizer.md R95). -/
abbrev BufferMatches (L : List Slot) (x : Slot) : Prop :=
  byteIdx x.b = 0xE#4 ∧ 14 ≤ L.length ∧ indexes (lastEntries 14 L) = indexRun

/-- The source's buffer: append, check, emit and clear (40_synchronizer.md R95). -/
def bufferOnByte (L : List Slot) (x : Slot) : List Slot × Option Frame :=
  if BufferMatches (L ++ [x]) x then ([], frameOf (lastEntries 14 (L ++ [x]))) else (L ++ [x], none)

/-- A buffer that keeps only its last `cap` entries (40_synchronizer.md R95). -/
def ringOnByte (cap : Nat) (L : List Slot) (x : Slot) : List Slot × Option Frame :=
  if BufferMatches (lastEntries cap (L ++ [x])) x then ([], frameOf (lastEntries 14 (L ++ [x])))
  else (lastEntries cap (L ++ [x]), none)

/-- A buffer that is never cleared: every byte ever seen counts (90_conflicts.md C3, 40_synchronizer.md R99). -/
def unclearedOnByte (L : List Slot) (x : Slot) : List Slot × Option Frame :=
  (L ++ [x], if BufferMatches (L ++ [x]) x then frameOf (lastEntries 14 (L ++ [x])) else none)

/-- The memory of the run-position design: `p`, `dn` and `ts0` (40_synchronizer.md R100). -/
structure RunPos where
  p   : Nat
  dn  : Vector Nibble 14
  ts0 : TS
deriving DecidableEq, Repr

/-- The run-position design's step on a byte (40_synchronizer.md R100). -/
def runPosOnByte (r : RunPos) (x : Slot) : RunPos × Option Frame :=
  let h := (byteIdx x.b).toNat
  if h = r.p + 1 then
    let ts0 := if h = 1 then x.ts else r.ts0
    let dn := r.dn.setIfInBounds (h - 1) (byteDat x.b)
    if h = 14 then (⟨0, dn, ts0⟩, some ⟨packNibbles dn.toList, ts0⟩) else (⟨h, dn, ts0⟩, none)
  else if h = 1 then (⟨1, r.dn.setIfInBounds 0 (byteDat x.b), x.ts⟩, none)
  else (⟨0, r.dn, r.ts0⟩, none)

/-- The source's unbounded buffer as a detector. -/
def bufferDetector : Detector (List Slot) := ⟨[], bufferOnByte⟩

/-- A ring buffer as a detector. -/
def ringDetector (cap : Nat) : Detector (List Slot) := ⟨[], ringOnByte cap⟩

/-- The uncleared buffer as a detector. -/
def unclearedDetector : Detector (List Slot) := ⟨[], unclearedOnByte⟩

/-- The run-position design as a detector; its nibbles and timestamp start with any value. -/
def runPosDetector (dn : Vector Nibble 14) (ts0 : TS) : Detector RunPos := ⟨⟨0, dn, ts0⟩, runPosOnByte⟩

/-- The window stands for the buffer `L`: `cnt = min(|L|, 14)`, and the live slots are the last `cnt` entries (40_synchronizer.md R95,
10_state.md R23). -/
def BufferRel (L : List Slot) (s : State) : Prop :=
  s.cnt.toNat = min L.length 14 ∧ lastEntries s.cnt.toNat s.window.toList = lastEntries s.cnt.toNat L

/-- The window stands for the newest entries of a buffer `L` that is never cleared (40_synchronizer.md R99): the live slots are its last
`cnt` entries, and they are either all that counts or stand right after the terminator of the last recognised frame. -/
def UnclearedRel (L : List Slot) (s : State) : Prop :=
  s.cnt.toNat ≤ min L.length 14 ∧ lastEntries s.cnt.toNat s.window.toList = lastEntries s.cnt.toNat L ∧
    (s.cnt.toNat = min L.length 14 ∨
      ∃ pre y, L.take (L.length - s.cnt.toNat) = pre ++ [y] ∧ byteIdx y.b = 0xE#4)

/-- The run position stands for the window (40_synchronizer.md R100): `p` is the length of the longest ascending run 1 to `p` among the
live slots that ends at the newest byte, `dn` holds its data nibbles and `ts0` its first timestamp. -/
def RunPosRel (r : RunPos) (s : State) : Prop :=
  r.p ≤ 13 ∧ r.p ≤ s.cnt.toNat ∧
  indexes (lastEntries r.p s.window.toList) = indexRun.take r.p ∧
  (lastEntries r.p s.window.toList).map (fun x => byteDat x.b) = r.dn.toList.take r.p ∧
  (∀ x, (lastEntries r.p s.window.toList).head? = some x → x.ts = r.ts0) ∧
  ∀ q, q ≤ 13 → q ≤ s.cnt.toNat → indexes (lastEntries q s.window.toList) = indexRun.take q → q ≤ r.p

/-- Timestamps renamed. -/
def Slot.mapTs (f : TS → TS) (x : Slot) : Slot := ⟨f x.ts, x.b⟩

/-- Timestamps renamed in a beat. -/
def InputBeat.mapTs (f : TS → TS) (x : InputBeat) : InputBeat := ⟨x.word, f x.ts⟩

/-- Timestamps renamed in what is seen of a step. -/
def Obs.mapTs (f : TS → TS) (o : Obs) : Obs :=
  ⟨o.frame.map fun fr => ⟨fr.word, f fr.ts⟩, o.reading.map fun r => { r with timestamp := f r.timestamp }, o.termCode⟩

/-- Two states that agree on `term`, `cnt`, the tables and the live pairs of the window (10_state.md R35), up to a renaming of
timestamps. -/
structure Alike (f : TS → TS) (s t : State) : Prop where
  term   : t.term = s.term
  cnt    : t.cnt = s.cnt
  live   : ∀ k : Fin 14, 14 ≤ k.val + s.cnt.toNat → t.window[k] = s.window[k].mapTs f
  tables : t.tables = s.tables

end Sys2Proof.Machine
end

