-- ==== Sys2Proof/Certificates/Slice0/Obligations.lean ====
section
/-! DEFINITION. The statements for the provers, and the shapes they share. Rule numbers are those of spec/. -/

namespace Sys2Proof.Claims

open Sys2Proof Sys2Proof.Machine

/-- The ports, the tables and the free-value counter are as before: no SYNC operation but RST touches any of them. -/
structure KeepsPorts (s t : State) : Prop where
  dec      : t.dec = s.dec
  inWord   : t.inWord = s.inWord
  inTs     : t.inTs = s.inTs
  pending  : t.pending = s.pending
  tables   : t.tables = s.tables
  freeNext : t.freeNext = s.freeNext

/-- The whole window after a push of `x` (R85): the newest pair is `x`, and every other slot holds what stood one slot above. -/
structure Pushed (x : Slot) (s t : State) : Prop where
  newest  : t.window[13] = x
  shifted : ∀ (k : Nat) (h : k < 13), t.window[k] = s.window[k + 1]

/-- The RUN branch of R86: the byte `b` is pushed with `in_ts`, nothing is emitted, and nothing else changes. -/
structure Absorbed (b : Byte) (s t : State) : Prop where
  pushed     : Pushed ⟨s.inTs, b⟩ s t
  count      : t.cnt.toNat = min (s.cnt.toNat + 1) 14
  frameValid : t.frameValid = false
  term       : t.term = s.term
  frameD     : t.frameD = s.frameD
  frameTs    : t.frameTs = s.frameTs
  ports      : KeepsPorts s t

/-- R98: an event the terminal state ignores clears `frame_valid` and changes nothing else. -/
structure Ignored (s t : State) : Prop where
  window     : t.window = s.window
  count      : t.cnt = s.cnt
  term       : t.term = s.term
  frameValid : t.frameValid = false
  frameD     : t.frameD = s.frameD
  frameTs    : t.frameTs = s.frameTs
  ports      : KeepsPorts s t

/-- Every input event but RST. -/
def EventNotReset : Instr → Prop
  | .idle | .eos | .ioerr => True
  | .noise0 _ | .fterm _ | .noise15 _ => True
  | .fidx1 _ | .fidx2 _ | .fidx3 _ | .fidx4 _ | .fidx5 _ | .fidx6 _ | .fidx7 _ => True
  | .fidx8 _ | .fidx9 _ | .fidx10 _ | .fidx11 _ | .fidx12 _ | .fidx13 _ => True
  | .rst | .decode _ => False

/-- No beat is a reset. -/
abbrev NoReset (xs : List InputBeat) : Prop := ∀ x ∈ xs, eventOf x ≠ .rst

/-- No Frame is seen. -/
abbrev NoFrames (os : List Obs) : Prop := ∀ o ∈ os, o.frame = none

/-- The entry tests a bit that is set (R111). -/
def KeyHit (e : KeyEntry) (F : FrameWord) : Prop := nibbleAt F e.off &&& e.mask ≠ 0#4

/-- `valid` and `idx` are those of the last entry that matches (R112). -/
structure LastOf (es : List KeyEntry) (F : FrameWord) (valid : Bool) (idx : Nat) : Prop where
  valid_iff : valid = true ↔ ∃ e ∈ es, KeyHit e F
  last      : valid = true → ∃ e, es[idx]? = some e ∧ KeyHit e F ∧ ∀ j e', idx < j → es[j]? = some e' → ¬KeyHit e' F
  zero      : valid = false → idx = 0

/-- The frame word of the digits `0000` with every other nibble 0 (R58). -/
def zerosWord : FrameWord := 0x07D7D7D7D00000#56

/-- The offset of digit pair `i`'s first nibble, `2i+1` (R106). -/
def hiOff (i : Fin 4) : Fin 14 := ⟨2 * i.val + 1, by omega⟩

/-- The offset of digit pair `i`'s second nibble, `2i+2` (R106). -/
def loOff (i : Fin 4) : Fin 14 := ⟨2 * i.val + 2, by omega⟩

/-- The DigitByte of lane `i` as a number, `16 * d[2i+1] + d[2i+2]` (R120). -/
def digitValue (F : FrameWord) (i : Fin 4) : Nat := 16 * (nibbleAt F (hiOff i)).toNat + (nibbleAt F (loOff i)).toNat

end Sys2Proof.Claims

open Sys2Proof Sys2Proof.Machine Sys2Proof.Claims

/-! ### Encodings -/

/-- R67: the input word's priority decode; a BYTE event is the byte `IW[7:0]` with the port's `in_ts`, seen in the window's newest
slot where no Frame is emitted. Where one is, that slot is stale (R92) and nothing is said of it here:
`TerminatorEmitsExactlyOnMatch` says what becomes of the byte there. -/
def Obligations.InputWordDecodesByPriority : Prop :=
  ∀ w : InputWord,
    (w.getLsbD 11 = true → decodeInput w = .rst) ∧
    (w.getLsbD 11 = false → w.getLsbD 10 = true → decodeInput w = .ioerr) ∧
    (w.getLsbD 11 = false → w.getLsbD 10 = false → w.getLsbD 9 = true → decodeInput w = .eos) ∧
    (w.getLsbD 11 = false → w.getLsbD 10 = false → w.getLsbD 9 = false → w.getLsbD 8 = true →
      (∃ idx dat, carried (decodeInput w) = some (idx, dat) ∧ mkByte idx dat = w.extractLsb' 0 8) ∧
      ∀ s : State, s.inWord = w → s.term = .run →
        ∃ t, exec (fetchEvent s) s = .next t ∧ (t.frame = none → t.window[13] = ⟨s.inTs, w.extractLsb' 0 8⟩)) ∧
    (w.getLsbD 11 = false → w.getLsbD 10 = false → w.getLsbD 9 = false → w.getLsbD 8 = false → decodeInput w = .idle)

/-- R69: the frame-index nibble fixes the class, and every byte value is accepted. -/
def Obligations.ByteClassFixedByIndexNibble : Prop :=
  ∀ dat : Nibble,
    decodeInput (byteWord 0x0#4 dat) = .noise0 dat ∧ decodeInput (byteWord 0x1#4 dat) = .fidx1 dat ∧
    decodeInput (byteWord 0x2#4 dat) = .fidx2 dat ∧ decodeInput (byteWord 0x3#4 dat) = .fidx3 dat ∧
    decodeInput (byteWord 0x4#4 dat) = .fidx4 dat ∧ decodeInput (byteWord 0x5#4 dat) = .fidx5 dat ∧
    decodeInput (byteWord 0x6#4 dat) = .fidx6 dat ∧ decodeInput (byteWord 0x7#4 dat) = .fidx7 dat ∧
    decodeInput (byteWord 0x8#4 dat) = .fidx8 dat ∧ decodeInput (byteWord 0x9#4 dat) = .fidx9 dat ∧
    decodeInput (byteWord 0xA#4 dat) = .fidx10 dat ∧ decodeInput (byteWord 0xB#4 dat) = .fidx11 dat ∧
    decodeInput (byteWord 0xC#4 dat) = .fidx12 dat ∧ decodeInput (byteWord 0xD#4 dat) = .fidx13 dat ∧
    decodeInput (byteWord 0xE#4 dat) = .fterm dat ∧ decodeInput (byteWord 0xF#4 dat) = .noise15 dat ∧
    ∀ (idx : Nibble) (s : State), ∃ t, exec (decodeInput (byteWord idx dat)) s = .next t

/-- R80: exactly one row of the operation map applies to each input word, and it is the row of the decoded operation. -/
def Obligations.OneMapRowForEachInputWord : Prop :=
  ∀ w : InputWord,
    (operationMap.filter fun r => w &&& r.2.2 == r.2.1).map Prod.fst = [(decodeInput w).mnemonic]

/-- Decode and encode agree on every operation with every operand (R66, R71, R80). The byte layout is the model's own (assumption 5). -/
def Obligations.DecodingAnEncodingGivesItBack : Prop :=
  ∀ i : Instr, decodeBytes (encodeBytes i) = .ok i

/-- The other direction: encoding what a word decodes to gives the word back where all its bits are fields (BYTE, frame word),
and otherwise a word of the same row (R80); only bits the operation ignores are dropped. -/
def Obligations.EncodingADecodedWordKeepsIt : Prop :=
  (∀ w : InputWord, w.extractLsb' 8 4 = 0x1#4 → encode (decodeInput w) = .input w) ∧
  (∀ w : InputWord, ∃ w', encode (decodeInput w) = .input w' ∧ decodeInput w' = decodeInput w ∧
    ∀ r ∈ operationMap, w &&& r.2.2 = r.2.1 → w' &&& r.2.2 = r.2.1) ∧
  (∀ F : FrameWord, encode (decodeFrameWord F) = .frame F)

/-- The byte decoder is total and refuses by name exactly what is no encoding (R78, R79; the byte layout and the two names are
the model's own, assumption 5). -/
def Obligations.DecoderRefusesByName : Prop :=
  ∀ bs : List Byte,
    (bs.length ≠ 2 → bs.length ≠ 7 → decodeBytes bs = .error (.badLength bs.length)) ∧
    (∀ b0 b1, bs = [b0, b1] → b1.extractLsb' 4 4 ≠ 0#4 → decodeBytes bs = .error .bitsBeyondPort) ∧
    (∀ b0 b1, bs = [b0, b1] → b1.extractLsb' 4 4 = 0#4 → ∃ i, decodeBytes bs = .ok i) ∧
    (bs.length = 7 → ∃ F, decodeBytes bs = .ok (.decode F))

/-- Words written out from R80 and 95_test_vectors.md decode to the operations they stand for. -/
def Obligations.WordsWrittenOutDecode : Prop :=
  decodeTableWord 16 0x0E5 = some .idle ∧ decodeTableWord 16 0x105 = some (.noise0 0x5#4) ∧
  decodeTableWord 16 0x1DA = some (.fidx13 0xA#4) ∧ decodeTableWord 16 0x1E4 = some (.fterm 0x4#4) ∧
  decodeTableWord 16 0x1F3 = some (.noise15 0x3#4) ∧ decodeTableWord 16 0x3E0 = some .eos ∧
  decodeTableWord 16 0x600 = some .ioerr ∧ decodeTableWord 16 0xFFF = some .rst ∧
  decodeTableWord 56 0x07D7D7D7D00000 = some (.decode 0x07D7D7D7D00000#56)

/-- R46: the two nibbles of a byte. -/
def Obligations.ByteSplitsIntoNibbles : Prop :=
  ∀ (b : Byte) (idx dat : Nibble),
    (byteIdx b).toNat = b.toNat / 16 ∧ (byteDat b).toNat = b.toNat % 16 ∧
    byteIdx (mkByte idx dat) = idx ∧ byteDat (mkByte idx dat) = dat

/-- R71: where data nibble `k` stands in the frame word, for reading and for packing. -/
def Obligations.FrameWordHoldsNibblesInOrder : Prop :=
  (∀ (F : FrameWord) (k : Fin 14) (j : Nat), j < 4 → (nibbleAt F k).getLsbD j = F.getLsbD (52 - 4 * k.val + j)) ∧
  (∀ (W : Vector Slot 14) (k : Fin 14), nibbleAt (packFrame W) k = byteDat W[k].b) ∧
  (∀ W : Vector Slot 14, packFrame W = packNibbles (W.toList.map fun x => byteDat x.b))

/-- R81, R82: each line of the stream notation stands for its input word, a `B` line without `@ t` for its own position, and FRAME and
FILL for the `B` lines they expand to, wherever they stand in the program. -/
def Obligations.StreamLinesStandForTheirWords : Prop :=
  ∀ pre : List StreamLine,
    (∀ b : Byte, assemble (pre ++ [.event (.byte b none)])
      = assemble pre ++ [⟨0x100#12 ||| b.setWidth 12, ⟨(assemble pre).length⟩⟩]) ∧
    (∀ (b : Byte) (t : Nat), assemble (pre ++ [.event (.byte b (some t))])
      = assemble pre ++ [⟨0x100#12 ||| b.setWidth 12, ⟨t⟩⟩]) ∧
    (assemble (pre ++ [.event .idle])).map InputBeat.word = (assemble pre).map InputBeat.word ++ [0x000#12] ∧
    (assemble (pre ++ [.event .eos])).map InputBeat.word = (assemble pre).map InputBeat.word ++ [0x200#12] ∧
    (assemble (pre ++ [.event .err])).map InputBeat.word = (assemble pre).map InputBeat.word ++ [0x400#12] ∧
    (assemble (pre ++ [.event .rst])).map InputBeat.word = (assemble pre).map InputBeat.word ++ [0x800#12] ∧
    (∀ (b : Byte) (k : Nat), assemble (pre ++ [.fill b k])
      = assemble (pre ++ List.replicate k (.event (.byte b none)))) ∧
    (∀ (ns : Vector Nibble 14) (ts : Option Nat), assemble (pre ++ [.frame ns ts])
      = assemble (pre ++ (List.finRange 14).map fun k =>
          .event (.byte (BitVec.ofNat 8 (16 * (k.val + 1)) ||| ns[k].setWidth 8) (ts.map fun t => t + k.val))))

/-! ### The step -/

/-- A step runs the decoded event, then DECODE of the frame register it leaves (R83, R2), then the byte source presents its next
beat. That an exhausted byte source presents IDLE is the model's choice (assumption 8). -/
def Obligations.StepRunsDecodedEventThenDecode : Prop :=
  ∀ (s : State) (i : Instr), decodeBytes (Encoded.input s.inWord).bytes = .ok i →
    ∃ s1 s2, exec i s = .next s1 ∧ exec (.decode s1.frameD) s1 = .next s2 ∧
      step s = .next (match s2.pending with
        | [] => { s2 with inWord := 0x000#12 }
        | x :: xs => { s2 with inWord := x.word, inTs := x.ts, pending := xs })

/-- R136: nothing makes the machine fault, stall or refuse; `in_ready` is constant 1. -/
def Obligations.NothingStopsTheMachine : Prop :=
  (∀ (i : Instr) (s : State), ∃ t, exec i s = .next t) ∧ (∀ s : State, ∃ t, step s = .next t ∧ t.inReady = true)

/-- Every list of beats has one run and only one (R19, R137). -/
def Obligations.EveryStreamHasOneRun : Prop :=
  ∀ (xs : List InputBeat) (s : State),
    ∃ os t, Run s xs os t ∧ os.length = xs.length ∧ ∀ os' t', Run s xs os' t' → os' = os ∧ t' = t

/-- Beats that wait with the byte source take effect in order, one a step (R62): the host's run over them ends where the run that
presents each beat ends. How beats wait is the model's choice (assumption 8). -/
def Obligations.PendingBeatsTakeEffectInOrder : Prop :=
  ∀ (xs : List InputBeat) (x : InputBeat) (s : State),
    ∃ os t t', Run s (x :: xs) os t ∧
      Host.Core.run Sys2Proof.core (xs.length + 1) { s with inWord := x.word, inTs := x.ts, pending := xs } = .next t' ∧
      t'.pending = [] ∧ t'.obs = t.obs ∧ t'.window = t.window ∧ t'.cnt = t.cnt ∧ t'.term = t.term ∧
      t'.frameValid = t.frameValid ∧ t'.frameD = t.frameD ∧ t'.frameTs = t.frameTs ∧ t'.dec = t.dec ∧
      t'.tables = t.tables ∧ t'.freeNext = t.freeNext

/-! ### The synchronizer's operations -/

/-- R85: PUSH. -/
def Obligations.PushShiftsWindowAndCounts : Prop :=
  ∀ (W : Vector Slot 14) (c : BitVec 4) (b : Byte) (ts : TS),
    (∀ (k : Nat) (h : k < 13), (pushWindow W ⟨ts, b⟩)[k] = W[k + 1]) ∧
    (pushWindow W ⟨ts, b⟩)[13] = ⟨ts, b⟩ ∧ (bumpCount c).toNat = min (c.toNat + 1) 14

/-- R86, R89: a byte with frame-index nibble 0 or 15. Its effect and frame in RUN and in the terminal state, and the rules' corner
cases: `cnt` stays 14 (the count clause), no window that holds such a byte matches, and after one no Frame can be recognised
until 14 more bytes have been pushed. -/
def Obligations.NoiseBytesAreAbsorbedAndBlock : Prop :=
  (∀ (i : Instr) (idx dat : Nibble) (s : State), carried i = some (idx, dat) → idx = 0x0#4 ∨ idx = 0xF#4 →
    ∃ t, exec i s = .next t ∧ (s.term = .run → Absorbed (mkByte idx dat) s t) ∧ (s.term ≠ .run → Ignored s t) ∧
      ∀ xs : List InputBeat, s.term = .run → (bytesOf xs).length < 14 → ∃ os u, Run t xs os u ∧ NoFrames os) ∧
  (∀ (W : Vector Slot 14) (c : BitVec 4) (k : Fin 14),
    byteIdx W[k].b = 0x0#4 ∨ byteIdx W[k].b = 0xF#4 → ¬Matches W c)

/-- R87: a byte with frame-index nibble 1 to 13, in RUN and in the terminal state, with its frame. -/
def Obligations.IndexedBytesAreAbsorbed : Prop :=
  ∀ (i : Instr) (idx dat : Nibble) (s : State), carried i = some (idx, dat) → 1 ≤ idx.toNat → idx.toNat ≤ 13 →
    ∃ t, exec i s = .next t ∧ (s.term = .run → Absorbed (mkByte idx dat) s t) ∧ (s.term ≠ .run → Ignored s t)

/-- R88, R90, R91, R98: the terminator, for the pushed window `W` that R88 calls `W'`. In RUN a Frame is emitted exactly when
R90's predicate holds, and it is R91's Frame; otherwise the byte is retained (R88); in the terminal state it is ignored (R98).
The clause `t.window = W` on a match is the model's choice (DESIGN CHOICE, assumption 10): R92 lets an implementation set the
slots to any value on a clear. No other statement says what those stale slots hold. -/
def Obligations.TerminatorEmitsExactlyOnMatch : Prop :=
  ∀ (dat : Nibble) (s : State) (W : Vector Slot 14),
    W[13] = ⟨s.inTs, mkByte 0xE#4 dat⟩ → (∀ (k : Nat) (h : k < 13), W[k] = s.window[k + 1]) →
    (s.term = .run →
      (min (s.cnt.toNat + 1) 14 = 14 ∧ byteIdx W[13].b = 0xE#4 ∧ ∀ k : Fin 14, (byteIdx W[k].b).toNat = k.val + 1) →
      ∃ t, exec (.fterm dat) s = .next t ∧ t.frameValid = true ∧ (∀ k : Fin 14, nibbleAt t.frameD k = byteDat W[k].b) ∧
        t.frameTs = W[0].ts ∧ t.window = W ∧ t.cnt = 0#4 ∧ t.term = .run ∧ KeepsPorts s t) ∧
    (s.term = .run →
      ¬(min (s.cnt.toNat + 1) 14 = 14 ∧ byteIdx W[13].b = 0xE#4 ∧ ∀ k : Fin 14, (byteIdx W[k].b).toNat = k.val + 1) →
      ∃ t, exec (.fterm dat) s = .next t ∧ Absorbed (mkByte 0xE#4 dat) s t) ∧
    (s.term ≠ .run → ∃ t, exec (.fterm dat) s = .next t ∧ Ignored s t)

/-- R88's corner case: with fewer than 14 bytes since reset or the last recognition there is no Frame, whatever the slots hold. -/
def Obligations.TooFewBytesNeverMatch : Prop :=
  ∀ (dat : Nibble) (s : State), s.term = .run → s.cnt.toNat + 1 < 14 →
    ∃ t, exec (.fterm dat) s = .next t ∧ t.frame = none ∧ t.cnt.toNat = s.cnt.toNat + 1

/-- R93: IDLE clears `frame_valid` and changes nothing else; IDLE steps between bytes leave the sequence of Frames as it is. -/
def Obligations.IdleOnlyClearsFrameValid : Prop :=
  (∀ s : State, exec .idle s = .next { s with frameValid := false }) ∧
  (∀ (xs : List InputBeat) (s : State), ∃ os t os' t',
    Run s xs os t ∧ Run s (xs.filter fun x => eventOf x ≠ .idle) os' t' ∧
    os.filterMap Obs.frame = os'.filterMap Obs.frame)

/-- R94: EOS, from RUN and in the terminal state; a partial frame in the window is never emitted. -/
def Obligations.EndOfStreamIsTerminal : Prop :=
  ∀ s : State,
    (s.term = .run → exec .eos s = .next { s with term := .eos, frameValid := false }) ∧
    (s.term ≠ .run → exec .eos s = .next { s with frameValid := false }) ∧
    (∀ xs : List InputBeat, NoReset xs →
      ∃ t os u, exec .eos s = .next t ∧ Run t xs os u ∧ NoFrames os ∧ (s.term = .run → u.termCode = 0b01#2))

/-- R96: IOERR, from RUN and in the terminal state, where the first code is kept; it is not retried. -/
def Obligations.DeviceFailureIsTerminal : Prop :=
  ∀ s : State,
    (s.term = .run → exec .ioerr s = .next { s with term := .ioErr, frameValid := false }) ∧
    (s.term ≠ .run → exec .ioerr s = .next { s with frameValid := false }) ∧
    (∀ xs : List InputBeat, NoReset xs →
      ∃ t os u, exec .ioerr s = .next t ∧ Run t xs os u ∧ NoFrames os ∧ (s.term = .run → u.termCode = 0b10#2))

/-- R97: RST in every state; what it leaves unspecified is not spoken of, and nothing of the old window is ever seen again: from
any two states with the same tables, what follows RST is the same. No other event leaves the terminal state. -/
def Obligations.ResetRestoresTheStart : Prop :=
  (∀ s : State, ∃ t, exec .rst s = .next t ∧ t.cnt = 0#4 ∧ t.term = .run ∧ t.frameValid = false ∧
    t.dec = s.dec ∧ t.inWord = s.inWord ∧ t.inTs = s.inTs ∧ t.pending = s.pending ∧ t.tables = s.tables) ∧
  (∀ (s s' : State) (xs : List InputBeat), s'.tables = s.tables →
    ∃ t t' os u u', exec .rst s = .next t ∧ exec .rst s' = .next t' ∧ Run t xs os u ∧ Run t' xs os u') ∧
  (∀ (i : Instr) (s : State), EventNotReset i → s.term ≠ .run → ∃ t, exec i s = .next t ∧ t.term = s.term)

/-- R98: the terminal state ignores every event but RST, and no Frame is emitted until RST. -/
def Obligations.TerminalStateIgnoresAllButReset : Prop :=
  (∀ (i : Instr) (s : State), s.term ≠ .run → EventNotReset i → ∃ t, exec i s = .next t ∧ Ignored s t) ∧
  (∀ (s : State) (xs : List InputBeat), s.term ≠ .run → NoReset xs →
    ∃ os t, Run s xs os t ∧ NoFrames os ∧ t.term = s.term ∧ t.window = s.window ∧ t.cnt = s.cnt)

/-- R129: only RST leaves the terminal state. -/
def Obligations.OnlyResetLeavesTerminal : Prop :=
  ∀ s t : State, step s = .next t → s.term ≠ .run → t.term ≠ s.term → fetchEvent s = .rst ∧ t.term = .run

/-- R131, R88: only a terminator in RUN emits; the step that emits enters no terminal state and clears the count. -/
def Obligations.OnlyTerminatorEmits : Prop :=
  ∀ s t : State, step s = .next t → t.frameValid = true →
    (∃ dat, fetchEvent s = .fterm dat) ∧ s.term = .run ∧ t.term = .run ∧ t.cnt = 0#4

/-- R25: `frame_valid` is 1 for exactly the step that recognises a Frame, and `frame_d` and `frame_ts` keep their values until
the next recognition. (RST, which leaves them unspecified by R39, is set apart.) -/
def Obligations.FrameRegisterHoldsUntilNextFrame : Prop :=
  ∀ s t : State, step s = .next t → fetchEvent s ≠ .rst → t.frame = none → t.frameD = s.frameD ∧ t.frameTs = s.frameTs

/-- R77: the codes of `term`, and 0b11 is never produced. -/
def Obligations.TerminalCodes : Prop :=
  TermStatus.code .run = 0b00#2 ∧ TermStatus.code .eos = 0b01#2 ∧ TermStatus.code .ioErr = 0b10#2 ∧
  ∀ s : State, s.termCode ≠ 0b11#2

/-- R39: what the spec says reset leaves. -/
def Obligations.StateAfterReset : Prop :=
  State.reset.cnt = 0#4 ∧ State.reset.term = .run ∧ State.reset.frameValid = false ∧ State.reset.frame = none ∧
  State.reset.reading = none ∧ State.reset.termCode = 0b00#2 ∧ State.reset.inReady = true

/-! ### The decoder -/

/-- R105, R116, R117, R32: DECODE of any frame word completes, drives the Reading port and nothing else, and the Reading it
gives has the frame's timestamp. -/
def Obligations.DecodeDrivesOnlyTheReadingPort : Prop :=
  ∀ (F : FrameWord) (s : State), ∃ t, exec (.decode F) s = .next t ∧ t = { s with dec := t.dec } ∧
    t.dec.rdValid = s.frameValid ∧ t.dec.rdTs = s.frameTs ∧
    (∀ i : Fin 4, t.dec.lanes[i].pat.toNat = digitValue F i % 128 ∧
      t.dec.lanes[i].flag = (nibbleAt F (hiOff i)).getLsbD 3) ∧
    LastOf s.tables.pfx F t.dec.pfxValid t.dec.pfxIdx ∧ LastOf s.tables.unit F t.dec.unitValid t.dec.unitIdx ∧
    (∀ j : Fin 7, t.dec.optVec.getLsbD j.val = true ↔ KeyHit s.tables.opt[j] F) ∧
    readingOf t.tables t.dec = decodeReading s.tables ⟨F, s.frameTs⟩ ∧
    (readingOf t.tables t.dec).timestamp = s.frameTs

/-- R106, R108: the DigitByte, the pattern and the character of each lane; an unmapped pattern gives `?`. -/
def Obligations.LanesLookUpTheirPattern : Prop :=
  ∀ (T : Tables) (F : FrameWord) (ts : TS) (v : Bool) (i : Fin 4),
    (digitByte F i).toNat = digitValue F i ∧ digitValue F i < 256 ∧
    (decPort T F ts v).lanes[i].pat.toNat = digitValue F i % 128 ∧
    (decPort T F ts v).lanes[i].known = (T.segAt (decPort T F ts v).lanes[i].pat).isSome ∧
    (decPort T F ts v).lanes[i].char = (T.segAt (decPort T F ts v).lanes[i].pat).getD 0x3F#8

/-- R109, R110: the digits string: each lane's mark, `-` in lane 0 and `.` in lanes 1 to 3, exactly where its flag is set, before
its character; 4 characters and one more for each flag. -/
def Obligations.DigitsTextMarksFlaggedLanes : Prop :=
  ∀ (T : Tables) (f : Frame),
    (decodeReading T f).digits = (List.finRange 4).flatMap (fun i =>
      (if (nibbleAt f.word (hiOff i)).getLsbD 3 then [if i = 0 then 0x2D#8 else 0x2E#8] else []) ++
        [(T.segAt (BitVec.ofNat 7 (digitValue f.word i))).getD 0x3F#8]) ∧
    (decodeReading T f).digits.length
      = 4 + ((List.finRange 4).filter fun i => (nibbleAt f.word (hiOff i)).getLsbD 3).length

/-- R121: each lane reads only its own two nibbles, and changing them changes no other lane. -/
def Obligations.LanesAreIndependent : Prop :=
  ∀ (T : Tables) (F G : FrameWord) (ts : TS) (v : Bool) (i : Fin 4),
    (nibbleAt F (hiOff i) = nibbleAt G (hiOff i) → nibbleAt F (loOff i) = nibbleAt G (loOff i) →
      (decPort T F ts v).lanes[i] = (decPort T G ts v).lanes[i]) ∧
    ((∀ k : Fin 14, k ≠ hiOff i → k ≠ loOff i → nibbleAt F k = nibbleAt G k) →
      ∀ j : Fin 4, j ≠ i → (decPort T F ts v).lanes[j] = (decPort T G ts v).lanes[j])

/-- R111, R75: an entry matches when some bit of its mask is set in its nibble; a zero mask never matches. -/
def Obligations.KeyMatchesOnAnySharedBit : Prop :=
  ∀ (e : KeyEntry) (F : FrameWord),
    (keyMatch e F = true ↔ ∃ b < 4, (nibbleAt F e.off).getLsbD b = true ∧ e.mask.getLsbD b = true) ∧
    (e.mask = 0#4 → keyMatch e F = false)

/-- R112, R113: the prefix and the unit are the last matching entries of their tables, and absent when nothing matches. Which of
several matches is reported rests on the original's iteration order (R13, 93_implementation_defined.md I3, assumption 6). -/
def Obligations.PrefixAndUnitAreLastMatches : Prop :=
  ∀ (T : Tables) (F : FrameWord) (ts : TS) (v : Bool),
    LastOf T.pfx F (decPort T F ts v).pfxValid (decPort T F ts v).pfxIdx ∧
    LastOf T.unit F (decPort T F ts v).unitValid (decPort T F ts v).unitIdx ∧
    (decodeReading T ⟨F, ts⟩).unitPrefix
      = (if (decPort T F ts v).pfxValid then T.pfx[(decPort T F ts v).pfxIdx]?.map KeyEntry.sym else none) ∧
    (decodeReading T ⟨F, ts⟩).unit
      = (if (decPort T F ts v).unitValid then T.unit[(decPort T F ts v).unitIdx]?.map KeyEntry.sym else none)

/-- The prefix and the unit where the tie-break is not in play (93_implementation_defined.md I3): if exactly one entry matches,
its symbol is reported. This holds under either reading of TIEBREAK. -/
def Obligations.SoleMatchIsReported : Prop :=
  ∀ (T : Tables) (f : Frame) (l r : List KeyEntry) (e : KeyEntry), KeyHit e f.word →
    (∀ e' ∈ l ++ r, ¬KeyHit e' f.word) →
    (T.pfx = l ++ e :: r → (decodeReading T f).unitPrefix = some e.sym) ∧
    (T.unit = l ++ e :: r → (decodeReading T f).unit = some e.sym)

/-- R76: the output encodings: the indexes fit their wires, an index without a match is 0, and option bit `j` is entry `j`. -/
def Obligations.ReadingPortEncoding : Prop :=
  ∀ (T : Tables) (F : FrameWord) (ts : TS) (v : Bool),
    ((decPort T F ts v).pfxValid = true ↔ ∃ e ∈ T.pfx, KeyHit e F) ∧
    ((decPort T F ts v).unitValid = true ↔ ∃ e ∈ T.unit, KeyHit e F) ∧
    (decPort T F ts v).pfxIdx < 2 ^ Config.indexWidth T.pfx.length ∧
    (decPort T F ts v).unitIdx < 2 ^ Config.indexWidth T.unit.length ∧
    ((decPort T F ts v).pfxValid = false → (decPort T F ts v).pfxIdx = 0) ∧
    ((decPort T F ts v).unitValid = false → (decPort T F ts v).unitIdx = 0) ∧
    (∀ j : Fin 7, (decPort T F ts v).optVec.getLsbD j.val = true ↔ KeyHit T.opt[j] F)

/-- R114, R115: the options are the symbols of every matching entry, in table order, a repeated symbol once, at its first place;
with distinct names they are exactly the matching entries. -/
def Obligations.OptionsAreAllMatchesInTableOrder : Prop :=
  ∀ (T : Tables) (f : Frame),
    (∀ j : Fin 7, (decPort T f.word f.ts true).optVec.getLsbD j.val = keyMatch T.opt[j] f.word) ∧
    (decodeReading T f).options = ((T.opt.toList.filter fun e => keyMatch e f.word).map KeyEntry.sym).eraseDups ∧
    (T.optNamesDistinct = true →
      (decodeReading T f).options = (T.opt.toList.filter fun e => keyMatch e f.word).map KeyEntry.sym)

/-- R54, R55: the two segment patterns the source fixes. -/
def Obligations.SegmentPatternsTheSourceFixes : Prop :=
  ∀ T : Tables, T.admissible = true → romSeg T 0x7D#7 = 0x30#8 ∧ romSeg T 0x2A#7 = 0x3F#8 ∧ segKnown T 0x2A#7 = false

/-- R58: under every admissible table no entry of any key table matches the frame of the digits `0000`, and that frame reads as
`0000` with no prefix, no unit and no option. -/
def Obligations.ZerosFrameReadsAsZeros : Prop :=
  ∀ T : Tables, T.admissible = true →
    (∀ e ∈ T.pfx ++ T.unit ++ T.opt.toList, ¬KeyHit e zerosWord ∧
      (e.off.val ∈ [1, 3, 5, 7] → e.mask &&& 0x7#4 = 0#4) ∧ (e.off.val ∈ [2, 4, 6, 8] → e.mask &&& 0xD#4 = 0#4)) ∧
    ∀ ts : TS, decodeReading T ⟨zerosWord, ts⟩ = ⟨ts, [0x30#8, 0x30#8, 0x30#8, 0x30#8], none, none, []⟩

/-- R56: every admissible table has the two entries in that order, and a frame with bits set at (0, 0x8) and (11, 0x2) reports `AC`, and `relative` after it. -/
def Obligations.AcComesBeforeRelative : Prop :=
  ∀ T : Tables, T.admissible = true →
    (∃ i j : Fin 7, i < j ∧ T.opt[i] = ⟨0, 0x8#4, "AC"⟩ ∧ T.opt[j] = ⟨11, 0x2#4, "relative"⟩) ∧
    ∀ f : Frame, (nibbleAt f.word 0).getLsbD 3 = true → (nibbleAt f.word 11).getLsbD 1 = true →
    ["AC", "relative"].Sublist (decodeReading T f).options

/-- Every step leaves on the Reading port the Reading of the Frame it emitted, and none when it emitted none (R62, R118). -/
def Obligations.EachFrameGivesItsReading : Prop :=
  ∀ s t : State, step s = .next t → t.reading = t.frame.map (decodeReading t.tables)

/-- R50: no operation and no step, reset included, changes the decode tables. -/
def Obligations.TablesAreNeverWritten : Prop :=
  (∀ (i : Instr) (s t : State), exec i s = .next t → t.tables = s.tables) ∧
  (∀ s t : State, step s = .next t → t.tables = s.tables)

/-- The model's own choice (assumption 3): the tables of the machine are an arbitrary admissible choice (R59). -/
def Obligations.ConfiguredTablesAreAdmissible : Prop := Config.tables.admissible = true

/-! ### Invariants and whole-machine rules -/

/-- Every step keeps the invariant: the count's range (R22), the pulse's meaning (R131), the Reading port (R32), the tables (R59). -/
def Obligations.StepKeepsTheInvariant : Prop :=
  ∀ s t : State, s.Inv → step s = .next t → t.Inv

/-- The invariant at reset. -/
def Obligations.ResetMeetsTheInvariant : Prop := State.reset.Inv

/-- R95: every BYTE step preserves the relation of the window to the source's unbounded buffer and emits the same Frame. -/
def Obligations.WindowFollowsTheSourceBuffer : Prop :=
  ∀ (L : List Slot) (s : State) (i : Instr) (idx dat : Nibble),
    BufferRel L s → s.term = .run → carried i = some (idx, dat) →
    ∃ t, exec i s = .next t ∧ t.term = .run ∧ BufferRel (bufferOnByte L ⟨s.inTs, mkByte idx dat⟩).1 t ∧
      t.frame = (bufferOnByte L ⟨s.inTs, mkByte idx dat⟩).2

/-- R95: from reset, over every list of beats, the machine emits what the source's unbounded buffer and a ring buffer of any
capacity from 14 up emit. -/
def Obligations.AnyBufferCapacityEmitsTheSame : Prop :=
  ∀ (s : State) (xs : List InputBeat) (cap : Nat), s.Fresh → 14 ≤ cap →
    ∃ os t, Run s xs os t ∧ os.map Obs.frame = bufferDetector.frames [] false xs ∧
      os.map Obs.frame = (ringDetector cap).frames [] false xs

/-- R95: every BYTE step preserves the same relation to a ring buffer of any capacity from 14 up and emits the same Frame; the ring
never holds more than its capacity. -/
def Obligations.WindowFollowsARingBuffer : Prop :=
  ∀ (cap : Nat) (L : List Slot) (s : State) (i : Instr) (idx dat : Nibble),
    14 ≤ cap → BufferRel L s → s.term = .run → carried i = some (idx, dat) →
    ∃ t, exec i s = .next t ∧ t.term = .run ∧ BufferRel (ringOnByte cap L ⟨s.inTs, mkByte idx dat⟩).1 t ∧
      t.frame = (ringOnByte cap L ⟨s.inTs, mkByte idx dat⟩).2 ∧
      (ringOnByte cap L ⟨s.inTs, mkByte idx dat⟩).1.length ≤ cap

/-- R99: every BYTE step preserves the relation of the window to the buffer that is never cleared and emits the same Frame. -/
def Obligations.WindowFollowsTheUnclearedBuffer : Prop :=
  ∀ (L : List Slot) (s : State) (i : Instr) (idx dat : Nibble),
    UnclearedRel L s → s.term = .run → carried i = some (idx, dat) →
    ∃ t, exec i s = .next t ∧ t.term = .run ∧ UnclearedRel (unclearedOnByte L ⟨s.inTs, mkByte idx dat⟩).1 t ∧
      t.frame = (unclearedOnByte L ⟨s.inTs, mkByte idx dat⟩).2

/-- R100: every BYTE step preserves the relation of the run position to the window's live slots and emits the same Frame. -/
def Obligations.RunPositionFollowsTheWindow : Prop :=
  ∀ (r : RunPos) (s : State) (i : Instr) (idx dat : Nibble),
    RunPosRel r s → s.term = .run → carried i = some (idx, dat) →
    ∃ t, exec i s = .next t ∧ t.term = .run ∧ RunPosRel (runPosOnByte r ⟨s.inTs, mkByte idx dat⟩).1 t ∧
      t.frame = (runPosOnByte r ⟨s.inTs, mkByte idx dat⟩).2

/-- R99: clearing on recognition changes no Frame: a buffer that is never cleared emits the same. -/
def Obligations.ClearingChangesNoFrame : Prop :=
  ∀ (s : State) (xs : List InputBeat), s.Fresh →
    ∃ os t, Run s xs os t ∧ os.map Obs.frame = unclearedDetector.frames [] false xs

/-- R100: the run-position design emits the same Frame sequence. -/
def Obligations.RunPositionDesignIsEquivalent : Prop :=
  ∀ (s : State) (xs : List InputBeat) (dn : Vector Nibble 14) (ts0 : TS), s.Fresh →
    ∃ os t, Run s xs os t ∧
      os.map Obs.frame = (runPosDetector dn ts0).frames (runPosDetector dn ts0).empty false xs

/-- R101: the bytes of a Frame are the 14 most recent BYTE events whatever IDLE steps lie between, and after a
recognition (or with `cnt = 0`) a Frame needs at least 14 BYTE events. -/
def Obligations.FrameIsTheFourteenNewestBytes : Prop :=
  (∀ (s : State) (xs : List InputBeat), s.Fresh → BytesAndIdles xs → xs ≠ [] →
    ∃ os t, Run s xs os t ∧ ∀ f, t.frame = some f → some f = frameOf (lastEntries 14 (bytesOf xs))) ∧
  (∀ (s : State) (xs : List InputBeat), (s.cnt = 0#4 ∨ ∃ r, step r = .next s ∧ s.frame ≠ none) →
    ∃ os t, Run s xs os t ∧ ((∃ o ∈ os, o.frame ≠ none) → 14 ≤ (bytesOf xs).length))

/-- R102: without 14 consecutive bytes indexed 1 to 14 there is no Frame; in particular a stream of bytes with high nibble 0 has none. -/
def Obligations.NoIndexRunNoFrame : Prop :=
  ∀ (s : State) (xs : List InputBeat), s.Fresh →
    ∃ os t, Run s xs os t ∧ ((∀ l, l.IsInfix (bytesOf xs) → indexes l ≠ indexRun) → NoFrames os) ∧
      ((∀ y ∈ bytesOf xs, byteIdx y.b = 0x0#4) → NoFrames os)

/-- R103: 14 consecutive bytes indexed 1 to 14, with any IDLE steps between, emit their Frame at the 14th and nothing before it,
whatever state of RUN they start from. -/
def Obligations.FourteenIndexedBytesEmitTheirFrame : Prop :=
  ∀ (s : State) (xs : List InputBeat) (x : InputBeat), s.term = .run → BytesAndIdles xs → (eventOf x).slot?.isSome = true →
    indexes (bytesOf (xs ++ [x])) = indexRun →
    ∃ os t, Run s (xs ++ [x]) os t ∧
      os.map Obs.frame = List.replicate xs.length none ++ [frameOf (bytesOf (xs ++ [x]))]

/-- R35 and R38: states that agree on `term`, `cnt` and the live pairs, up to any renaming `f` of timestamps, cannot be told apart by
any later events: over the same beats renamed they show the same outputs renamed. With `f` the identity this is R35; for every `f`
it says that timestamps are copied and never looked at. -/
def Obligations.AlikeStatesCannotBeToldApart : Prop :=
  ∀ (f : TS → TS) (s t : State) (xs : List InputBeat), Alike f s t →
    ∃ os s' t', Run s xs os s' ∧ Run t (xs.map (InputBeat.mapTs f)) (os.map (Obs.mapTs f)) t' ∧ Alike f s' t'

/-- R82, R103: a FRAME line is recognised from every state in RUN, with its 14 nibbles and its first byte's timestamp. -/
def Obligations.FrameLineIsRecognised : Prop :=
  ∀ (s : State) (ns : Vector Nibble 14) (ts : Option Nat), s.term = .run →
    ∃ os t, Run s (assemble [.frame ns ts]) os t ∧ t.frame = some ⟨packNibbles ns.toList, ⟨ts.getD 0⟩⟩ ∧
      t.reading = some (decodeReading s.tables ⟨packNibbles ns.toList, ⟨ts.getD 0⟩⟩)

/-- R137: from the post-reset state every finite sequence of events has one run up to where it is over. Without a terminal event it is
over when the sequence has been consumed, in RUN; otherwise it is over right after the first terminal event, with that event's code,
whatever the sequence holds behind it. The outputs of its observation are the Frames with their step indexes and Readings. An infinite
sequence without a terminal event has one infinite run, which is never over, with the same outputs; one with a terminal event has none. -/
def Obligations.RunsAreOverAtTheirEnd : Prop :=
  ∀ s : State, s.PostReset →
    (∀ xs : List InputBeat, ∃ os t, ToEnd s xs os t ∧ RunOver t (xs.drop os.length) ∧
      (∀ os' t', ToEnd s xs os' t' → os' = os ∧ t' = t) ∧
      ((∀ x ∈ xs, ¬EndsStream x) → os.length = xs.length ∧ (observation os t).termCode = 0b00#2) ∧
      (∀ pre x post, xs = pre ++ x :: post → (∀ y ∈ pre, ¬EndsStream y) → EndsStream x →
        os.length = pre.length + 1 ∧ (eventOf x = .eos → (observation os t).termCode = 0b01#2) ∧
        (eventOf x = .ioErr → (observation os t).termCode = 0b10#2)) ∧
      (∀ (n : Nat) (f : Frame) (rd : Reading), ⟨n, f, rd⟩ ∈ (observation os t).outputs ↔
        (∃ o, os[n]? = some o ∧ o.frame = some f) ∧ rd = decodeReading s.tables f) ∧
      (observation os t).outputs.Pairwise fun a b => a.index < b.index) ∧
    (∀ xs : Nat → InputBeat, (∀ n, ¬EndsStream (xs n)) →
      ∃ tr, InfiniteRun s xs tr ∧ (∀ tr', InfiniteRun s xs tr' → tr' = tr) ∧
        ∀ n, ((tr (n + 1)).obs.output n) = (tr (n + 1)).frame.map fun f => ⟨n, f, decodeReading s.tables f⟩) ∧
    (∀ (xs : Nat → InputBeat) (n : Nat), EndsStream (xs n) → ¬∃ tr, InfiniteRun s xs tr)
end

