-- ==== Sys2Proof/Laws/State.lean ====
section
/-! SUPPORT. One lemma per field per update of State, so that no proof unfolds a record update. -/

namespace Sys2Proof.Machine

open Sys2Proof

/-! `clearFrameValid` -/

@[simp] theorem clearFrameValid_window (s : State) : (clearFrameValid s).window = s.window := rfl
@[simp] theorem clearFrameValid_cnt (s : State) : (clearFrameValid s).cnt = s.cnt := rfl
@[simp] theorem clearFrameValid_term (s : State) : (clearFrameValid s).term = s.term := rfl
@[simp] theorem clearFrameValid_frameValid (s : State) : (clearFrameValid s).frameValid = false := rfl
@[simp] theorem clearFrameValid_frameD (s : State) : (clearFrameValid s).frameD = s.frameD := rfl
@[simp] theorem clearFrameValid_frameTs (s : State) : (clearFrameValid s).frameTs = s.frameTs := rfl
@[simp] theorem clearFrameValid_dec (s : State) : (clearFrameValid s).dec = s.dec := rfl
@[simp] theorem clearFrameValid_inWord (s : State) : (clearFrameValid s).inWord = s.inWord := rfl
@[simp] theorem clearFrameValid_inTs (s : State) : (clearFrameValid s).inTs = s.inTs := rfl
@[simp] theorem clearFrameValid_pending (s : State) : (clearFrameValid s).pending = s.pending := rfl
@[simp] theorem clearFrameValid_tables (s : State) : (clearFrameValid s).tables = s.tables := rfl
@[simp] theorem clearFrameValid_freeNext (s : State) : (clearFrameValid s).freeNext = s.freeNext := rfl

/-! `retain` -/

@[simp] theorem retain_window (b : Byte) (s : State) : (retain b s).window = pushedWindow b s := rfl
@[simp] theorem retain_cnt (b : Byte) (s : State) : (retain b s).cnt = bumpCount s.cnt := rfl
@[simp] theorem retain_term (b : Byte) (s : State) : (retain b s).term = s.term := rfl
@[simp] theorem retain_frameValid (b : Byte) (s : State) : (retain b s).frameValid = false := rfl
@[simp] theorem retain_frameD (b : Byte) (s : State) : (retain b s).frameD = s.frameD := rfl
@[simp] theorem retain_frameTs (b : Byte) (s : State) : (retain b s).frameTs = s.frameTs := rfl
@[simp] theorem retain_dec (b : Byte) (s : State) : (retain b s).dec = s.dec := rfl
@[simp] theorem retain_inWord (b : Byte) (s : State) : (retain b s).inWord = s.inWord := rfl
@[simp] theorem retain_inTs (b : Byte) (s : State) : (retain b s).inTs = s.inTs := rfl
@[simp] theorem retain_pending (b : Byte) (s : State) : (retain b s).pending = s.pending := rfl
@[simp] theorem retain_tables (b : Byte) (s : State) : (retain b s).tables = s.tables := rfl
@[simp] theorem retain_freeNext (b : Byte) (s : State) : (retain b s).freeNext = s.freeNext := rfl

/-! `recognise` -/

@[simp] theorem recognise_window (b : Byte) (s : State) : (recognise b s).window = pushedWindow b s := rfl
@[simp] theorem recognise_cnt (b : Byte) (s : State) : (recognise b s).cnt = 0#4 := rfl
@[simp] theorem recognise_term (b : Byte) (s : State) : (recognise b s).term = s.term := rfl
@[simp] theorem recognise_frameValid (b : Byte) (s : State) : (recognise b s).frameValid = true := rfl
@[simp] theorem recognise_frameD (b : Byte) (s : State) : (recognise b s).frameD = packFrame (pushedWindow b s) := rfl
@[simp] theorem recognise_frameTs (b : Byte) (s : State) : (recognise b s).frameTs = (pushedWindow b s)[0].ts := rfl
@[simp] theorem recognise_dec (b : Byte) (s : State) : (recognise b s).dec = s.dec := rfl
@[simp] theorem recognise_inWord (b : Byte) (s : State) : (recognise b s).inWord = s.inWord := rfl
@[simp] theorem recognise_inTs (b : Byte) (s : State) : (recognise b s).inTs = s.inTs := rfl
@[simp] theorem recognise_pending (b : Byte) (s : State) : (recognise b s).pending = s.pending := rfl
@[simp] theorem recognise_tables (b : Byte) (s : State) : (recognise b s).tables = s.tables := rfl
@[simp] theorem recognise_freeNext (b : Byte) (s : State) : (recognise b s).freeNext = s.freeNext := rfl

/-! `raiseTerminal` -/

@[simp] theorem raiseTerminal_window (c : TermStatus) (s : State) : (raiseTerminal c s).window = s.window := rfl
@[simp] theorem raiseTerminal_cnt (c : TermStatus) (s : State) : (raiseTerminal c s).cnt = s.cnt := rfl
@[simp] theorem raiseTerminal_term (c : TermStatus) (s : State) : (raiseTerminal c s).term = c := rfl
@[simp] theorem raiseTerminal_frameValid (c : TermStatus) (s : State) : (raiseTerminal c s).frameValid = false := rfl
@[simp] theorem raiseTerminal_frameD (c : TermStatus) (s : State) : (raiseTerminal c s).frameD = s.frameD := rfl
@[simp] theorem raiseTerminal_frameTs (c : TermStatus) (s : State) : (raiseTerminal c s).frameTs = s.frameTs := rfl
@[simp] theorem raiseTerminal_dec (c : TermStatus) (s : State) : (raiseTerminal c s).dec = s.dec := rfl
@[simp] theorem raiseTerminal_inWord (c : TermStatus) (s : State) : (raiseTerminal c s).inWord = s.inWord := rfl
@[simp] theorem raiseTerminal_inTs (c : TermStatus) (s : State) : (raiseTerminal c s).inTs = s.inTs := rfl
@[simp] theorem raiseTerminal_pending (c : TermStatus) (s : State) : (raiseTerminal c s).pending = s.pending := rfl
@[simp] theorem raiseTerminal_tables (c : TermStatus) (s : State) : (raiseTerminal c s).tables = s.tables := rfl
@[simp] theorem raiseTerminal_freeNext (c : TermStatus) (s : State) : (raiseTerminal c s).freeNext = s.freeNext := rfl

/-! `takeReset` -/

@[simp] theorem takeReset_window (s : State) : (takeReset s).window = freeWindow s.freeNext := rfl
@[simp] theorem takeReset_cnt (s : State) : (takeReset s).cnt = 0#4 := rfl
@[simp] theorem takeReset_term (s : State) : (takeReset s).term = .run := rfl
@[simp] theorem takeReset_frameValid (s : State) : (takeReset s).frameValid = false := rfl
@[simp] theorem takeReset_frameD (s : State) : (takeReset s).frameD = Config.freeFrameWord s.freeNext := rfl
@[simp] theorem takeReset_frameTs (s : State) : (takeReset s).frameTs = Config.freeStamp (s.freeNext + 14) := rfl
@[simp] theorem takeReset_dec (s : State) : (takeReset s).dec = s.dec := rfl
@[simp] theorem takeReset_inWord (s : State) : (takeReset s).inWord = s.inWord := rfl
@[simp] theorem takeReset_inTs (s : State) : (takeReset s).inTs = s.inTs := rfl
@[simp] theorem takeReset_pending (s : State) : (takeReset s).pending = s.pending := rfl
@[simp] theorem takeReset_tables (s : State) : (takeReset s).tables = s.tables := rfl
@[simp] theorem takeReset_freeNext (s : State) : (takeReset s).freeNext = s.freeNext + 15 := rfl

/-! `driveDec` -/

@[simp] theorem driveDec_window (F : FrameWord) (s : State) : (driveDec F s).window = s.window := rfl
@[simp] theorem driveDec_cnt (F : FrameWord) (s : State) : (driveDec F s).cnt = s.cnt := rfl
@[simp] theorem driveDec_term (F : FrameWord) (s : State) : (driveDec F s).term = s.term := rfl
@[simp] theorem driveDec_frameValid (F : FrameWord) (s : State) : (driveDec F s).frameValid = s.frameValid := rfl
@[simp] theorem driveDec_frameD (F : FrameWord) (s : State) : (driveDec F s).frameD = s.frameD := rfl
@[simp] theorem driveDec_frameTs (F : FrameWord) (s : State) : (driveDec F s).frameTs = s.frameTs := rfl
@[simp] theorem driveDec_dec (F : FrameWord) (s : State) : (driveDec F s).dec = decPort s.tables F s.frameTs s.frameValid := rfl
@[simp] theorem driveDec_inWord (F : FrameWord) (s : State) : (driveDec F s).inWord = s.inWord := rfl
@[simp] theorem driveDec_inTs (F : FrameWord) (s : State) : (driveDec F s).inTs = s.inTs := rfl
@[simp] theorem driveDec_pending (F : FrameWord) (s : State) : (driveDec F s).pending = s.pending := rfl
@[simp] theorem driveDec_tables (F : FrameWord) (s : State) : (driveDec F s).tables = s.tables := rfl
@[simp] theorem driveDec_freeNext (F : FrameWord) (s : State) : (driveDec F s).freeNext = s.freeNext := rfl

/-! `present` -/

@[simp] theorem present_window (x : InputBeat) (s : State) : (s.present x).window = s.window := rfl
@[simp] theorem present_cnt (x : InputBeat) (s : State) : (s.present x).cnt = s.cnt := rfl
@[simp] theorem present_term (x : InputBeat) (s : State) : (s.present x).term = s.term := rfl
@[simp] theorem present_frameValid (x : InputBeat) (s : State) : (s.present x).frameValid = s.frameValid := rfl
@[simp] theorem present_frameD (x : InputBeat) (s : State) : (s.present x).frameD = s.frameD := rfl
@[simp] theorem present_frameTs (x : InputBeat) (s : State) : (s.present x).frameTs = s.frameTs := rfl
@[simp] theorem present_dec (x : InputBeat) (s : State) : (s.present x).dec = s.dec := rfl
@[simp] theorem present_inWord (x : InputBeat) (s : State) : (s.present x).inWord = x.word := rfl
@[simp] theorem present_inTs (x : InputBeat) (s : State) : (s.present x).inTs = x.ts := rfl
@[simp] theorem present_pending (x : InputBeat) (s : State) : (s.present x).pending = s.pending := rfl
@[simp] theorem present_tables (x : InputBeat) (s : State) : (s.present x).tables = s.tables := rfl
@[simp] theorem present_freeNext (x : InputBeat) (s : State) : (s.present x).freeNext = s.freeNext := rfl

/-! `advanceInput`: only the input port and what is pending change. -/

@[simp] theorem advanceInput_window (s : State) : (advanceInput s).window = s.window := by
  unfold advanceInput; split <;> rfl
@[simp] theorem advanceInput_cnt (s : State) : (advanceInput s).cnt = s.cnt := by
  unfold advanceInput; split <;> rfl
@[simp] theorem advanceInput_term (s : State) : (advanceInput s).term = s.term := by
  unfold advanceInput; split <;> rfl
@[simp] theorem advanceInput_frameValid (s : State) : (advanceInput s).frameValid = s.frameValid := by
  unfold advanceInput; split <;> rfl
@[simp] theorem advanceInput_frameD (s : State) : (advanceInput s).frameD = s.frameD := by
  unfold advanceInput; split <;> rfl
@[simp] theorem advanceInput_frameTs (s : State) : (advanceInput s).frameTs = s.frameTs := by
  unfold advanceInput; split <;> rfl
@[simp] theorem advanceInput_dec (s : State) : (advanceInput s).dec = s.dec := by
  unfold advanceInput; split <;> rfl
@[simp] theorem advanceInput_tables (s : State) : (advanceInput s).tables = s.tables := by
  unfold advanceInput; split <;> rfl
@[simp] theorem advanceInput_freeNext (s : State) : (advanceInput s).freeNext = s.freeNext := by
  unfold advanceInput; split <;> rfl

theorem advanceInput_of_nil (s : State) (h : s.pending = []) : advanceInput s = { s with inWord := 0#12 } := by
  simp [advanceInput, h]

theorem advanceInput_of_cons (s : State) (x : InputBeat) (xs : List InputBeat) (h : s.pending = x :: xs) :
    advanceInput s = { s with inWord := x.word, inTs := x.ts, pending := xs } := by
  simp [advanceInput, h]

end Sys2Proof.Machine
end

