-- ==== Sys2Proof/Laws/Decoder.lean ====
section
/-! SUPPORT. The decoder's small lemmas: the key match as a proposition, the scans one entry at a time, and the lanes of the port. -/

namespace Sys2Proof.Machine

open Sys2Proof

/-- The key match as a proposition. -/
theorem keyMatch_iff (e : KeyEntry) (F : FrameWord) : keyMatch e F = true ↔ nibbleAt F e.off &&& e.mask ≠ 0#4 := by
  simp [keyMatch]

@[simp] theorem lastMatchFrom_nil (F : FrameWord) (j : Nat) (acc : Bool × Nat) : lastMatchFrom F j acc [] = acc := rfl

/-- The scan takes an entry that matches and passes over one that does not. -/
theorem lastMatchFrom_cons (F : FrameWord) (j : Nat) (acc : Bool × Nat) (e : KeyEntry) (es : List KeyEntry) :
    lastMatchFrom F j acc (e :: es) = lastMatchFrom F (j + 1) (if keyMatch e F then (true, j) else acc) es := rfl

/-- A scan over two lists is the scan of the second from where the first ended. -/
theorem lastMatchFrom_append (F : FrameWord) (es ds : List KeyEntry) (j : Nat) (acc : Bool × Nat) :
    lastMatchFrom F j acc (es ++ ds) = lastMatchFrom F (j + es.length) (lastMatchFrom F j acc es) ds := by
  induction es generalizing j acc with
  | nil => simp
  | cons e es ih => simp [lastMatchFrom_cons, ih, show j + 1 + es.length = j + (es.length + 1) by omega]

/-- Without a match the scan keeps what it had. -/
theorem lastMatchFrom_of_no_match (F : FrameWord) (es : List KeyEntry) (j : Nat) (acc : Bool × Nat)
    (h : ∀ e ∈ es, keyMatch e F = false) : lastMatchFrom F j acc es = acc := by
  induction es generalizing j acc with
  | nil => rfl
  | cons e es ih =>
    rw [lastMatchFrom_cons, h e (by simp)]
    simpa using ih (j + 1) acc fun e' he => h e' (by simp [he])

@[simp] theorem optionsFrom_nil (bits : BitVec 7) (j : Nat) (o : List String) : optionsFrom bits j o [] = o := rfl

/-- The option scan adds an entry whose bit is set and whose symbol is new. -/
theorem optionsFrom_cons (bits : BitVec 7) (j : Nat) (o : List String) (e : KeyEntry) (es : List KeyEntry) :
    optionsFrom bits j o (e :: es)
      = optionsFrom bits (j + 1) (if bits.getLsbD j && !o.contains e.sym then o ++ [e.sym] else o) es := rfl

/-- Lane `i` of the port is `decLane` of `i`. -/
theorem decPort_lane (T : Tables) (F : FrameWord) (ts : TS) (v : Bool) (i : Fin 4) :
    (decPort T F ts v).lanes[i] = decLane T F i := by
  match i with
  | 0 | 1 | 2 | 3 => rfl

@[simp] theorem decPort_rdValid (T : Tables) (F : FrameWord) (ts : TS) (v : Bool) : (decPort T F ts v).rdValid = v := rfl

@[simp] theorem decPort_rdTs (T : Tables) (F : FrameWord) (ts : TS) (v : Bool) : (decPort T F ts v).rdTs = ts := rfl

/-- The text of a lane is its character, after the mark if the flag is set. -/
theorem laneText_eq (mark : Byte) (l : Lane) : laneText mark l = (if l.flag then [mark] else []) ++ [l.char] := by
  unfold laneText; split <;> simp

end Sys2Proof.Machine
end

