-- ==== Sys2Proof/Laws/Ops.lean ====
section
/-! SUPPORT. One lemma for each shared operation, saying once what it does; proofs cite these and do not unfold. -/

namespace Sys2Proof.Machine

open Sys2Proof

/-- A slot of the pushed window below the newest holds what stood one slot above it. -/
theorem pushWindow_below (W : Vector Slot 14) (x : Slot) (k : Nat) (h : k < 13) : (pushWindow W x)[k] = W[k + 1] := by
  rcases k with _ | _ | _ | _ | _ | _ | _ | _ | _ | _ | _ | _ | _ | k <;> first | rfl | omega

/-- The newest slot of the pushed window is the pushed pair. -/
theorem pushWindow_newest (W : Vector Slot 14) (x : Slot) : (pushWindow W x)[13] = x := rfl

/-- A pushed window as a list: the oldest pair gone, the new one at the end. -/
theorem pushWindow_toList (W : Vector Slot 14) (x : Slot) : (pushWindow W x).toList = W.toList.drop 1 ++ [x] := by
  refine List.ext_getElem (by simp) fun k h1 h2 => ?_
  have hk : k < 14 := by simpa using h1
  rcases Nat.lt_or_ge k 13 with h | h
  · have hl : k < (W.toList.drop 1).length := by simp; omega
    rw [List.getElem_append_left hl]
    simpa [Nat.add_comm] using pushWindow_below W x k h
  · obtain rfl : k = 13 := by omega
    simp [pushWindow_newest]

/-- The pushed count as a number. -/
theorem bumpCount_toNat (c : BitVec 4) : (bumpCount c).toNat = min (c.toNat + 1) 14 := by
  have h : min (c.toNat + 1) 14 < 16 := by omega
  simp [bumpCount, Nat.mod_eq_of_lt h]

/-- The pushed count is in range whatever the count was. -/
theorem bumpCount_le (c : BitVec 4) : (bumpCount c).toNat ≤ 14 := by
  rw [bumpCount_toNat]; omega

/-- The pushed count is 14 exactly from 13 on. -/
theorem bumpCount_eq_full (c : BitVec 4) : bumpCount c = 14#4 ↔ 13 ≤ c.toNat := by
  rw [← BitVec.toNat_inj, bumpCount_toNat]
  simp

/-- The terminal status is RUN or one of the two codes. -/
theorem ended_of_ne_run {m : TermStatus} (h : m ≠ .run) : m = .eos ∨ m = .ioErr := by
  cases m <;> simp_all

/-- `absorb` in RUN. -/
theorem absorb_run (b : Byte) (s : State) (h : s.term = .run) : absorb b s = retain b s := by
  simp [absorb, h]

/-- `absorb` in the terminal state. -/
theorem absorb_ended (b : Byte) (s : State) (h : s.term ≠ .run) : absorb b s = clearFrameValid s := by
  rcases ended_of_ne_run h with h | h <;> simp [absorb, h]

/-- `absorbTerminator` in RUN, on a match. -/
theorem absorbTerminator_match (b : Byte) (s : State) (h : s.term = .run)
    (hm : Matches (pushedWindow b s) (bumpCount s.cnt)) : absorbTerminator b s = recognise b s := by
  simp only [absorbTerminator, h, if_pos hm]

/-- `absorbTerminator` in RUN, without a match. -/
theorem absorbTerminator_noMatch (b : Byte) (s : State) (h : s.term = .run)
    (hm : ¬Matches (pushedWindow b s) (bumpCount s.cnt)) : absorbTerminator b s = retain b s := by
  simp only [absorbTerminator, h, if_neg hm]

/-- `absorbTerminator` in the terminal state. -/
theorem absorbTerminator_ended (b : Byte) (s : State) (h : s.term ≠ .run) :
    absorbTerminator b s = clearFrameValid s := by
  rcases ended_of_ne_run h with h | h <;> simp [absorbTerminator, h]

/-- Everything a terminator can do. -/
theorem absorbTerminator_cases (b : Byte) (s : State) :
    (s.term = .run ∧ Matches (pushedWindow b s) (bumpCount s.cnt) ∧ absorbTerminator b s = recognise b s) ∨
    (s.term = .run ∧ ¬Matches (pushedWindow b s) (bumpCount s.cnt) ∧ absorbTerminator b s = retain b s) ∨
    (s.term ≠ .run ∧ absorbTerminator b s = clearFrameValid s) := by
  by_cases h : s.term = .run
  · by_cases hm : Matches (pushedWindow b s) (bumpCount s.cnt)
    · exact .inl ⟨h, hm, absorbTerminator_match b s h hm⟩
    · exact .inr (.inl ⟨h, hm, absorbTerminator_noMatch b s h hm⟩)
  · exact .inr (.inr ⟨h, absorbTerminator_ended b s h⟩)

/-- `endStream` in RUN. -/
theorem endStream_run (c : TermStatus) (s : State) (h : s.term = .run) : endStream c s = raiseTerminal c s := by
  simp [endStream, h]

/-- `endStream` in the terminal state. -/
theorem endStream_ended (c : TermStatus) (s : State) (h : s.term ≠ .run) : endStream c s = clearFrameValid s := by
  rcases ended_of_ne_run h with h | h <;> simp [endStream, h]

/-- A sequence whose first action goes on is its second action. -/
@[simp] theorem andThen_next (s : State) (k : State → Host.Outcome State Fault Refusal) : andThen (.next s) k = k s := rfl

/-- A sequence goes on exactly when both of its actions do. -/
theorem andThen_eq_next {o : Host.Outcome State Fault Refusal} {k : State → Host.Outcome State Fault Refusal} {t : State}
    (h : andThen o k = .next t) : ∃ s, o = .next s ∧ k s = .next t := by
  cases o with
  | next s => exact ⟨s, rfl, h⟩
  | fault r => cases r
  | refused r => cases h

end Sys2Proof.Machine
end

