-- ==== Sys2Proof/Laws/PerInstr.lean ====
section
/-! SUPPORT. Statements made per operation. RowMatch: the encoded word lies in its own row of the operation map (30_encoding.md R80). -/

namespace Sys2Proof.Laws.RowMatch

open Sys2Proof

/-- The word the encoder gives `i` lies in the operation map's row of `i`'s mnemonic; DECODE's word is a frame word. -/
def inOwnRow (i : Instr) : Bool :=
  match encode i with
  | .input w => operationMap.any fun r => r.1 == i.mnemonic && w &&& r.2.2 == r.2.1
  | .frame _ => i.mnemonic == "DECODE"

abbrev Statement (i : Instr) : Prop := inOwnRow i = true

theorem idle : Statement .idle := by decide
theorem noise0 (dat : Nibble) : Statement (.noise0 dat) := by revert dat; decide
theorem fidx1 (dat : Nibble) : Statement (.fidx1 dat) := by revert dat; decide
theorem fidx2 (dat : Nibble) : Statement (.fidx2 dat) := by revert dat; decide
theorem fidx3 (dat : Nibble) : Statement (.fidx3 dat) := by revert dat; decide
theorem fidx4 (dat : Nibble) : Statement (.fidx4 dat) := by revert dat; decide
theorem fidx5 (dat : Nibble) : Statement (.fidx5 dat) := by revert dat; decide
theorem fidx6 (dat : Nibble) : Statement (.fidx6 dat) := by revert dat; decide
theorem fidx7 (dat : Nibble) : Statement (.fidx7 dat) := by revert dat; decide
theorem fidx8 (dat : Nibble) : Statement (.fidx8 dat) := by revert dat; decide
theorem fidx9 (dat : Nibble) : Statement (.fidx9 dat) := by revert dat; decide
theorem fidx10 (dat : Nibble) : Statement (.fidx10 dat) := by revert dat; decide
theorem fidx11 (dat : Nibble) : Statement (.fidx11 dat) := by revert dat; decide
theorem fidx12 (dat : Nibble) : Statement (.fidx12 dat) := by revert dat; decide
theorem fidx13 (dat : Nibble) : Statement (.fidx13 dat) := by revert dat; decide
theorem fterm (dat : Nibble) : Statement (.fterm dat) := by revert dat; decide
theorem noise15 (dat : Nibble) : Statement (.noise15 dat) := by revert dat; decide
theorem eos : Statement .eos := by decide
theorem ioerr : Statement .ioerr := by decide
theorem rst : Statement .rst := by decide
theorem decode (word : FrameWord) : Statement (.decode word) := by simp [Statement, inOwnRow, encode, Instr.mnemonic]

end Sys2Proof.Laws.RowMatch
end

