-- ==== Sys2Proof/Laws/Runs.lean ====
section
/-! SUPPORT. The small lemmas of runs, their ends and their outputs: one inversion for each way a run can go. -/

namespace Sys2Proof.Machine

open Sys2Proof

/-- A run over no beats shows nothing and stays. -/
theorem run_nil_iff {s t : State} {os : List Obs} : Run s [] os t ↔ os = [] ∧ t = s := by
  constructor
  · intro h; cases h; exact ⟨rfl, rfl⟩
  · rintro ⟨rfl, rfl⟩; exact .done _

/-- A run over a beat and more is a step and a run. -/
theorem run_cons_iff {s t : State} {x : InputBeat} {xs : List InputBeat} {os : List Obs} :
    Run s (x :: xs) os t ↔ ∃ s1 os1, step (s.present x) = .next s1 ∧ os = s1.obs :: os1 ∧ Run s1 xs os1 t := by
  constructor
  · intro h; cases h with | beat first rest => exact ⟨_, _, first, rfl, rest⟩
  · rintro ⟨s1, os1, first, rfl, rest⟩; exact .beat first rest

/-- Runs over two lists of beats, one after the other. -/
theorem run_append {s t u : State} {xs ys : List InputBeat} {os ps : List Obs} (h : Run s xs os t) (g : Run t ys ps u) :
    Run s (xs ++ ys) (os ++ ps) u := by
  induction h with
  | done => exact g
  | beat first _ ih => exact .beat first (ih g)

/-- A run that is over shows nothing more. -/
theorem toEnd_of_over {s t : State} {xs : List InputBeat} {os : List Obs} (h : RunOver s xs) :
    ToEnd s xs os t ↔ os = [] ∧ t = s := by
  constructor
  · intro g
    cases g with
    | finished _ => exact ⟨rfl, rfl⟩
    | beat n _ _ => exact absurd h n
  · rintro ⟨rfl, rfl⟩; exact .finished h

/-- A run that is not over takes the next event's step. -/
theorem toEnd_of_going {s t : State} {x : InputBeat} {xs : List InputBeat} {os : List Obs} (h : ¬s.Over) :
    ToEnd s (x :: xs) os t ↔ ∃ s1 os1, step (s.present x) = .next s1 ∧ os = s1.obs :: os1 ∧ ToEnd s1 xs os1 t := by
  have going : ¬RunOver s (x :: xs) := by simpa [RunOver] using h
  constructor
  · intro g
    cases g with
    | finished o => exact absurd o going
    | beat _ first rest => exact ⟨_, _, first, rfl, rest⟩
  · rintro ⟨s1, os1, first, rfl, rest⟩; exact .beat going first rest

/-- Where a run to its end stops, it is over. -/
theorem toEnd_over {s t : State} {xs : List InputBeat} {os : List Obs} (h : ToEnd s xs os t) :
    RunOver t (xs.drop os.length) := by
  induction h with
  | finished h => simpa using h
  | beat _ _ _ ih => simpa using ih

/-- A run to its end is a run over the events it took. -/
theorem toEnd_run {s t : State} {xs : List InputBeat} {os : List Obs} (h : ToEnd s xs os t) :
    Run s (xs.take os.length) os t := by
  induction h with
  | finished _ => exact .done _
  | beat _ first _ ih => exact .beat first ih

@[simp] theorem outputsFrom_nil (n : Nat) : outputsFrom n [] = [] := rfl

@[simp] theorem outputsFrom_cons (n : Nat) (o : Obs) (os : List Obs) :
    outputsFrom n (o :: os) = (o.output n).toList ++ outputsFrom (n + 1) os := rfl

/-- The last entries of a list with one more at its end. -/
theorem lastEntries_snoc {α : Type} (n : Nat) (L : List α) (x : α) :
    lastEntries (n + 1) (L ++ [x]) = lastEntries n L ++ [x] := by
  unfold lastEntries
  rw [List.length_append, List.length_singleton, Nat.add_sub_add_right,
    List.drop_append_of_le_length (by omega)]

/-- Last entries of last entries. -/
theorem lastEntries_lastEntries {α : Type} {m n : Nat} (h : m ≤ n) (L : List α) :
    lastEntries m (lastEntries n L) = lastEntries m L := by
  unfold lastEntries
  rw [List.drop_drop, List.length_drop]
  congr 1
  omega

end Sys2Proof.Machine
end

