-- ==== Sys2Proof/Tests/Slice0.lean ====
section
/-! SUPPORT. Small tests with expected results from 95_test_vectors.md and the rules, and a witness for the hypotheses of every obligation that has some. TT1 is the spec's named test table, not the definition of MI23FSD. -/

namespace Sys2Proof.Tests

open Sys2Proof Sys2Proof.Machine Sys2Proof.Claims

/-! ### Fixtures -/

/-- The spec's test table TT1 (95_test_vectors.md), which is a test fixture only. -/
def tt1 : Tables where
  seg  := [(0x00#7, 0x20#8), (0x05#7, 0x31#8), (0x15#7, 0x37#8), (0x1F#7, 0x33#8), (0x27#7, 0x34#8), (0x3E#7, 0x35#8),
           (0x3F#7, 0x39#8), (0x5B#7, 0x32#8), (0x68#7, 0x4C#8), (0x7D#7, 0x30#8), (0x7E#7, 0x36#8), (0x7F#7, 0x38#8)]
  pfx  := [⟨9, 0x8#4, "µ"⟩, ⟨9, 0x4#4, "n"⟩, ⟨9, 0x2#4, "k"⟩, ⟨10, 0x8#4, "m"⟩, ⟨10, 0x2#4, "M"⟩]
  unit := [⟨10, 0x4#4, "%"⟩, ⟨11, 0x8#4, "F"⟩, ⟨11, 0x4#4, "Ω"⟩, ⟨12, 0x8#4, "A"⟩, ⟨12, 0x4#4, "V"⟩, ⟨12, 0x2#4, "Hz"⟩]
  opt  := #v[⟨0, 0x8#4, "AC"⟩, ⟨0, 0x4#4, "DC"⟩, ⟨0, 0x2#4, "auto-range"⟩, ⟨0, 0x1#4, "RS232-linked"⟩,
             ⟨9, 0x1#4, "diode"⟩, ⟨10, 0x1#4, "buzzer"⟩, ⟨11, 0x2#4, "relative"⟩]

/-- A window whose slot `k` holds the byte `k` of a list, at time `k`. -/
def windowOf (bs : List Byte) : Vector Slot 14 := Vector.ofFn fun k => ⟨⟨k.val⟩, bs.getD k.val 0x00#8⟩

/-- A state over TT1 with a window and a count. -/
def stateOf (bs : List Byte) (cnt : BitVec 4) : State :=
  { State.reset with window := windowOf bs, cnt := cnt, tables := tt1, dec := decPort tt1 0#56 ⟨0⟩ false, inTs := ⟨20⟩ }

/-- The start state of 95_test_vectors.md 2.1: `B 11`, `B 22`, `B 33` after reset. -/
def three : State := stateOf [0, 0, 0, 0, 0, 0, 0, 0, 0, 0, 0, 0x11#8, 0x22#8, 0x33#8] 3#4

/-- Thirteen bytes of `FRAME 0 7 D 7 D 7 D 7 D 0 0 0 0 0`, waiting for the terminator (V1-7). -/
def ready : State :=
  stateOf [0, 0x10#8, 0x27#8, 0x3D#8, 0x47#8, 0x5D#8, 0x67#8, 0x7D#8, 0x87#8, 0x9D#8, 0xA0#8, 0xB0#8, 0xC0#8, 0xD0#8] 13#4

/-- `three` after EOS. -/
def ended : State := { three with term := .eos }

/-- A property of the state an operation leaves. -/
def leaves (i : Instr) (s : State) (p : State → Bool) : Bool :=
  match exec i s with
  | .next t => p t
  | .fault _ => false
  | .refused _ => false

/-- A property of the state a step leaves. -/
def stepLeaves (s : State) (p : State → Bool) : Bool :=
  match step s with
  | .next t => p t
  | .fault _ => false
  | .refused _ => false

/-- What the single-step vectors of 2.1 show: `cnt`, `term`, no frame, `W[13].b`. -/
def shows (cnt : BitVec 4) (term : TermStatus) (newest : Byte) (t : State) : Bool :=
  t.cnt == cnt && t.term == term && !t.frameValid && t.window[13].b == newest

/-! ### Well-formedness: each check refuses an ill-formed table, and TT1 passes -/

theorem test_wf_tt1 : tt1.firstFlaw = none ∧ tt1.admissible = true := by decide
theorem test_wf_least : Tables.least.admissible = true := by decide
theorem test_wf_seg_order : { tt1 with seg := (0x7D#7, 0x30#8) :: tt1.seg }.firstFlaw = some "segment patterns not strictly rising" := by decide
theorem test_wf_seg_zero : { tt1 with seg := [] }.firstFlaw = some "R54: 0x7D is not the character 0" := by decide
theorem test_wf_seg_hole : { tt1 with seg := [(0x2A#7, 0x41#8), (0x7D#7, 0x30#8)] }.firstFlaw = some "R55: 0x2A is mapped" := by decide
theorem test_wf_keys : { tt1 with pfx := [⟨9, 0x8#4, "a"⟩, ⟨9, 0x8#4, "b"⟩] }.firstFlaw = some "R52: a key stands twice in one table" := by decide
theorem test_wf_ac_order : { tt1 with opt := (tt1.opt.set 0 ⟨11, 0x2#4, "relative"⟩).set 6 ⟨0, 0x8#4, "AC"⟩ }.firstFlaw = some "R56: AC before relative is missing" := by decide
theorem test_wf_names : { tt1 with opt := tt1.opt.set 4 ⟨9, 0x1#4, "AC"⟩ }.firstFlaw = some "R57: two options share a name" := by decide
theorem test_wf_quiet : { tt1 with unit := [⟨1, 0x1#4, "x"⟩] }.firstFlaw = some "R58: an entry matches the 0000 frame" := by decide
theorem test_wf_instr : (Instr.fterm 0xF#4).wf = true := by decide

/-! ### Decoding: for every constructor a word written out from 30_encoding.md R66 and R80 -/

theorem test_decode_idle : decodeTableWord 16 0b000011100101 = some .idle := by decide
theorem test_decode_noise0 : decodeTableWord 16 0b000100000101 = some (.noise0 0x5#4) := by decide
theorem test_decode_fidx1 : decodeTableWord 16 0b000100010001 = some (.fidx1 0x1#4) := by decide
theorem test_decode_fidx2 : decodeTableWord 16 0b000100100010 = some (.fidx2 0x2#4) := by decide
theorem test_decode_fidx3 : decodeTableWord 16 0b000100110100 = some (.fidx3 0x4#4) := by decide
theorem test_decode_fidx4 : decodeTableWord 16 0b000101001000 = some (.fidx4 0x8#4) := by decide
theorem test_decode_fidx5 : decodeTableWord 16 0b000101010011 = some (.fidx5 0x3#4) := by decide
theorem test_decode_fidx6 : decodeTableWord 16 0b000101100110 = some (.fidx6 0x6#4) := by decide
theorem test_decode_fidx7 : decodeTableWord 16 0b000101111100 = some (.fidx7 0xC#4) := by decide
theorem test_decode_fidx8 : decodeTableWord 16 0b000110001001 = some (.fidx8 0x9#4) := by decide
theorem test_decode_fidx9 : decodeTableWord 16 0b000110011010 = some (.fidx9 0xA#4) := by decide
theorem test_decode_fidx10 : decodeTableWord 16 0b000110100111 = some (.fidx10 0x7#4) := by decide
theorem test_decode_fidx11 : decodeTableWord 16 0b000110111101 = some (.fidx11 0xD#4) := by decide
theorem test_decode_fidx12 : decodeTableWord 16 0b000111001110 = some (.fidx12 0xE#4) := by decide
theorem test_decode_fidx13 : decodeTableWord 16 0b000111011010 = some (.fidx13 0xA#4) := by decide
theorem test_decode_fterm : decodeTableWord 16 0b000111100100 = some (.fterm 0x4#4) := by decide
theorem test_decode_noise15 : decodeTableWord 16 0b000111110011 = some (.noise15 0x3#4) := by decide
theorem test_decode_eos : decodeTableWord 16 0b001111100000 = some .eos := by decide
theorem test_decode_ioerr : decodeTableWord 16 0b011000000000 = some .ioerr := by decide
theorem test_decode_rst : decodeTableWord 16 0b111111111111 = some .rst := by decide
theorem test_decode_frame : decodeTableWord 56 0x123456789ABCDE = some (.decode 0x123456789ABCDE#56) := by decide
theorem test_decode_refuses_bit12 : decodeTableWord 16 0x1000 = none := by decide

/-! ### One step of each operation (95_test_vectors.md 2.1) -/

theorem test_idle_T1 : leaves .idle three (shows 3#4 .run 0x33#8) = true := by decide
theorem test_noise0_T3 : leaves (.noise0 0x5#4) three (shows 4#4 .run 0x05#8) = true := by decide
theorem test_fidx1_T5 : leaves (.fidx1 0x1#4) three (shows 4#4 .run 0x11#8) = true := by decide
theorem test_fidx2 : leaves (.fidx2 0x7#4) three (shows 4#4 .run 0x27#8) = true := by decide
theorem test_fidx3 : leaves (.fidx3 0xD#4) three (shows 4#4 .run 0x3D#8) = true := by decide
theorem test_fidx4_T4 : leaves (.fidx4 0x4#4) three (shows 4#4 .run 0x44#8) = true := by decide
theorem test_fidx5 : leaves (.fidx5 0xD#4) three (shows 4#4 .run 0x5D#8) = true := by decide
theorem test_fidx6 : leaves (.fidx6 0x7#4) three (shows 4#4 .run 0x67#8) = true := by decide
theorem test_fidx7 : leaves (.fidx7 0xD#4) three (shows 4#4 .run 0x7D#8) = true := by decide
theorem test_fidx8 : leaves (.fidx8 0x7#4) three (shows 4#4 .run 0x87#8) = true := by decide
theorem test_fidx9 : leaves (.fidx9 0xD#4) three (shows 4#4 .run 0x9D#8) = true := by decide
theorem test_fidx10 : leaves (.fidx10 0x1#4) three (shows 4#4 .run 0xA1#8) = true := by decide
theorem test_fidx11 : leaves (.fidx11 0x2#4) three (shows 4#4 .run 0xB2#8) = true := by decide
theorem test_fidx12 : leaves (.fidx12 0x3#4) three (shows 4#4 .run 0xC3#8) = true := by decide
theorem test_fidx13_T6 : leaves (.fidx13 0xA#4) three (shows 4#4 .run 0xDA#8) = true := by decide
theorem test_fterm_T7 : leaves (.fterm 0x4#4) three (shows 4#4 .run 0xE4#8) = true := by decide
theorem test_noise15_T8 : leaves (.noise15 0x0#4) three (shows 4#4 .run 0xF0#8) = true := by decide
theorem test_eos_T9 : leaves .eos three (shows 3#4 .eos 0x33#8) = true := by decide
theorem test_ioerr_T11 : leaves .ioerr three (shows 3#4 .ioErr 0x33#8) = true := by decide
theorem test_rst_T13 : leaves .rst three (fun t => t.cnt == 0#4 && t.term == .run && !t.frameValid) = true := by decide

theorem test_noise15_T15 : leaves (.noise15 0xF#4) (stateOf [] 14#4) (shows 14#4 .run 0xFF#8) = true := by decide
theorem test_fidx4_T17 : leaves (.fidx4 0x4#4) ended (shows 3#4 .eos 0x33#8) = true := by decide
theorem test_ioerr_T18 : leaves .ioerr ended (shows 3#4 .eos 0x33#8) = true := by decide
theorem test_idle_T19 : leaves .idle ended (shows 3#4 .eos 0x33#8) = true := by decide
theorem test_rst_T20 : leaves .rst ended (fun t => t.cnt == 0#4 && t.term == .run) = true := by decide

/-- V1-7: the terminator 0xE0 emits 0x07D7D7D7D00000, stamped with the first byte's time (slot 1's, before the push). -/
theorem test_fterm_V1_7 : leaves (.fterm 0x0#4) ready (fun t =>
    t.frameValid && t.frameD == 0x07D7D7D7D00000#56 && t.frameTs == ⟨1⟩ && t.cnt == 0#4) = true := by decide

/-- D12 under TT1. -/
theorem test_decode_D12 : decodeReading tt1 ⟨0x0055B1F277D00C#56, ⟨7⟩⟩
    = ⟨⟨7⟩, [0x31#8, 0x32#8, 0x33#8, 0x34#8], some "m", some "%", ["diode", "buzzer"]⟩ := by decide

/-- D10 under TT1, through the operation: `-8.8.8.8`, M (idx 4), Hz (idx 5), all seven options. -/
theorem test_decode_D10 : leaves (.decode 0xFFFFFFFFFFFFFF#56) three (fun t =>
    t.dec.pfxIdx == 4 && t.dec.unitIdx == 5 && t.dec.optVec == 0x7F#7
      && digitsText t.dec.lanes == [0x2D#8, 0x38#8, 0x2E#8, 0x38#8, 0x2E#8, 0x38#8, 0x2E#8, 0x38#8]) = true := by decide

/-- K1: both entries match, and the last wins. -/
theorem test_lastMatch_K1 : lastMatch [⟨9, 0x8#4, "u"⟩, ⟨9, 0xC#4, "X"⟩] 0x00000000080000#56 = (true, 1) := by decide

/-- K4: a zero mask never matches. -/
theorem test_lastMatch_K4 : lastMatch [⟨9, 0x0#4, "z"⟩] 0xFFFFFFFFFFFFFF#56 = (false, 0) := by decide

/-- K7: a repeated symbol is listed once. -/
theorem test_options_K7 : (decodeReading { tt1 with opt := tt1.opt.set 4 ⟨9, 0x1#4, "AC"⟩ } ⟨0x80000000010000#56, ⟨0⟩⟩).options
    = ["AC"] := by decide

/-! ### The step and the host's words -/

theorem test_step_V1_7 : stepLeaves (ready.withFetchWord 16 0x1E0) (fun t =>
    t.reading == some ⟨⟨1⟩, [0x30#8, 0x30#8, 0x30#8, 0x30#8], none, none, []⟩ && t.inWord == 0#12) = true := by decide

theorem test_step_runs_frame_word : stepLeaves (three.withFetchWord 56 0x87D7D7D7D00200) (fun t =>
    t.dec.optVec == 0x41#7 && t.frameD == 0x87D7D7D7D00200#56) = true := by decide

theorem test_step_from_reset : stepLeaves (State.reset.withFetchWord 16 0x1E4) (fun t => t.cnt == 1#4) = true := by decide

theorem test_step_next_beat : stepLeaves { three with inWord := 0x144#12, pending := [⟨0x155#12, ⟨9⟩⟩] } (fun t =>
    t.cnt == 4#4 && t.inWord == 0x155#12 && t.inTs == ⟨9⟩ && t.pending == []) = true := by decide

/-- The first words of P3's last FRAME line, after 22 events (95_test_vectors.md P3). -/
theorem test_stream_P3 : ((assemble [.fill 0x00#8 22, .frame #v[1, 2, 3, 4, 5, 6, 7, 8, 9, 10, 11, 12, 13, 14] none]).drop 22).take 2
    = [⟨0x111#12, ⟨22⟩⟩, ⟨0x122#12, ⟨23⟩⟩] := by decide

/-! ### Witnesses: for every obligation with hypotheses, a state and operands that meet them -/

/-- A beat with the byte `b`. -/
def beat (b : Byte) : InputBeat := ⟨0x1#4 ++ b, ⟨0⟩⟩

/-- The first 13 bytes of a frame of zeros. -/
def thirteenBeats : List InputBeat :=
  [beat 0x10#8, beat 0x20#8, beat 0x30#8, beat 0x40#8, beat 0x50#8, beat 0x60#8, beat 0x70#8, beat 0x80#8, beat 0x90#8,
   beat 0xA0#8, beat 0xB0#8, beat 0xC0#8, beat 0xD0#8]

/-- The state with the port set, and a step from it whose result meets `p`. -/
def onPort (w : InputWord) (s : State) : State := { s with inWord := w }

/-- What a Boolean test of a step says as a proposition. -/
theorem stepLeaves_iff (s : State) (p : State → Bool) (h : stepLeaves s p = true) : ∃ t, step s = .next t ∧ p t = true := by
  unfold stepLeaves at h
  split at h
  · exact ⟨_, by assumption, h⟩
  · cases h
  · cases h

/-- Each of the five cases has a word, at the edge where the next higher bit is clear and every lower one set. The BYTE event there
emits no Frame; the terminator of a complete frame is a BYTE event that does. -/
theorem witness_InputWordDecodesByPriority :
    (0xFFF#12).getLsbD 11 = true ∧ ((0x7FF#12).getLsbD 11 = false ∧ (0x7FF#12).getLsbD 10 = true) ∧
    ((0x3FF#12).getLsbD 11 = false ∧ (0x3FF#12).getLsbD 10 = false ∧ (0x3FF#12).getLsbD 9 = true) ∧
    ((0x1FF#12).getLsbD 11 = false ∧ (0x1FF#12).getLsbD 10 = false ∧ (0x1FF#12).getLsbD 9 = false ∧
      (0x1FF#12).getLsbD 8 = true ∧ (onPort 0x1FF#12 three).inWord = 0x1FF#12 ∧ (onPort 0x1FF#12 three).term = .run ∧
      leaves (fetchEvent (onPort 0x1FF#12 three)) (onPort 0x1FF#12 three) (·.frame == none) = true ∧
      leaves (fetchEvent (onPort 0x1E0#12 ready)) (onPort 0x1E0#12 ready) (·.frame != none) = true) ∧
    ((0x0FF#12).getLsbD 11 = false ∧ (0x0FF#12).getLsbD 10 = false ∧ (0x0FF#12).getLsbD 9 = false ∧
      (0x0FF#12).getLsbD 8 = false) := by decide

theorem witness_EncodingADecodedWordKeepsIt :
    (0x1E5#12).extractLsb' 8 4 = 0x1#4 ∧ (∃ r ∈ operationMap, 0xFFF#12 &&& r.2.2 = r.2.1) := by decide

theorem witness_DecoderRefusesByName :
    (([] : List Byte).length ≠ 2 ∧ ([] : List Byte).length ≠ 7) ∧ (0x10#8).extractLsb' 4 4 ≠ 0#4 ∧
    (0x0F#8).extractLsb' 4 4 = 0#4 ∧ (List.replicate 7 (0#8 : Byte)).length = 7 := by decide

theorem witness_StepRunsDecodedEventThenDecode :
    decodeBytes (Encoded.input (onPort 0x1E4#12 three).inWord).bytes = .ok (.fterm 0x4#4) := by decide

theorem witness_NoiseBytesAreAbsorbedAndBlock :
    (carried (.noise0 0x5#4) = some (0x0#4, 0x5#4) ∧ carried (.noise15 0xF#4) = some (0xF#4, 0xF#4)) ∧
    (three.term = .run ∧ ended.term ≠ .run) ∧ (bytesOf thirteenBeats).length < 14 ∧
    (byteIdx (stateOf [] 14#4).window[(0 : Fin 14)].b = 0x0#4 ∧
      byteIdx (windowOf [0xF3#8])[(0 : Fin 14)].b = 0xF#4) := by decide

theorem witness_IndexedBytesAreAbsorbed :
    (carried (.fidx1 0x5#4) = some (0x1#4, 0x5#4) ∧ 1 ≤ (0x1#4).toNat) ∧
    (carried (.fidx13 0x5#4) = some (0xD#4, 0x5#4) ∧ (0xD#4).toNat ≤ 13) ∧ three.term = .run ∧ ended.term ≠ .run := by decide

/-- The window `ready` has after its terminator matches; the one `three` has after it does not. -/
theorem witness_TerminatorEmitsExactlyOnMatch :
    ((pushWindow ready.window ⟨ready.inTs, 0xE0#8⟩)[13] = ⟨ready.inTs, mkByte 0xE#4 0x0#4⟩ ∧
      (∀ k : Fin 13, (pushWindow ready.window ⟨ready.inTs, 0xE0#8⟩)[k.val] = ready.window[k.val + 1])) ∧
    (ready.term = .run ∧ min (ready.cnt.toNat + 1) 14 = 14 ∧
      ∀ k : Fin 14, (byteIdx (pushWindow ready.window ⟨ready.inTs, 0xE0#8⟩)[k].b).toNat = k.val + 1) ∧
    (three.term = .run ∧ min (three.cnt.toNat + 1) 14 ≠ 14) ∧ ended.term ≠ .run := by decide

theorem witness_TooFewBytesNeverMatch :
    (stateOf [] 12#4).term = .run ∧ (stateOf [] 12#4).cnt.toNat + 1 < 14 := by decide

/-- For EndOfStreamIsTerminal and DeviceFailureIsTerminal. -/
theorem witness_TerminalEvents :
    three.term = .run ∧ ended.term ≠ .run ∧ NoReset (⟨0x200#12, ⟨0⟩⟩ :: thirteenBeats) := by decide

theorem witness_ResetRestoresTheStart :
    ready.tables = three.tables ∧ EventNotReset (.noise0 0x0#4) ∧ ended.term ≠ .run := ⟨rfl, trivial, by decide⟩

theorem witness_TerminalStateIgnoresAllButReset :
    ended.term ≠ .run ∧ EventNotReset (.fterm 0x0#4) ∧ EventNotReset .ioerr ∧ NoReset thirteenBeats :=
  ⟨by decide, trivial, trivial, by decide⟩

theorem witness_OnlyResetLeavesTerminal :
    ∃ t, step (onPort 0x800#12 ended) = .next t ∧ (onPort 0x800#12 ended).term ≠ .run ∧
      t.term ≠ (onPort 0x800#12 ended).term := by
  obtain ⟨t, h, ht⟩ := stepLeaves_iff (onPort 0x800#12 ended) (fun t => t.term == .run) (by decide)
  exact ⟨t, h, by decide, by simp at ht; simp [ht, onPort, ended]⟩

theorem witness_OnlyTerminatorEmits : ∃ t, step (onPort 0x1E0#12 ready) = .next t ∧ t.frameValid = true :=
  stepLeaves_iff _ (·.frameValid) (by decide)

theorem witness_FrameRegisterHoldsUntilNextFrame :
    ∃ t, step (onPort 0x144#12 three) = .next t ∧ fetchEvent (onPort 0x144#12 three) ≠ .rst ∧ t.frame = none := by
  obtain ⟨t, h, ht⟩ := stepLeaves_iff (onPort 0x144#12 three) (·.frame == none) (by decide)
  exact ⟨t, h, by decide, by simpa using ht⟩

/-- Two words that differ in lane 1 only. -/
theorem witness_LanesAreIndependent :
    (nibbleAt 0x07D7D7D7D00000#56 (hiOff 0) = nibbleAt 0x07DFD7D7D00000#56 (hiOff 0) ∧
      nibbleAt 0x07D7D7D7D00000#56 (loOff 0) = nibbleAt 0x07DFD7D7D00000#56 (loOff 0)) ∧
    (∀ k : Fin 14, k ≠ hiOff 1 → k ≠ loOff 1 → nibbleAt 0x07D7D7D7D00000#56 k = nibbleAt 0x07DFD7D7D00000#56 k) ∧
    (3 : Fin 4) ≠ 1 := by decide

theorem witness_KeyMatchesOnAnySharedBit : (⟨9, 0#4, "z"⟩ : KeyEntry).mask = 0#4 := by decide

theorem witness_SoleMatchIsReported :
    KeyHit ⟨12, 0x4#4, "V"⟩ 0x00000000000040#56 ∧
    (∀ e' ∈ tt1.unit.take 4 ++ tt1.unit.drop 5, ¬KeyHit e' 0x00000000000040#56) ∧
    tt1.unit = tt1.unit.take 4 ++ ⟨12, 0x4#4, "V"⟩ :: tt1.unit.drop 5 ∧
    KeyHit ⟨10, 0x2#4, "M"⟩ 0x00000000002000#56 ∧
    (∀ e' ∈ tt1.pfx.take 4 ++ [], ¬KeyHit e' 0x00000000002000#56) ∧
    tt1.pfx = tt1.pfx.take 4 ++ ⟨10, 0x2#4, "M"⟩ :: [] := by
  unfold KeyHit; decide

theorem witness_OptionsAreAllMatchesInTableOrder : tt1.optNamesDistinct = true := by decide

/-- For SegmentPatternsTheSourceFixes, ZerosFrameReadsAsZeros and AcComesBeforeRelative: an admissible table with an entry at an odd and one at an even digit offset, for the clauses of R58. -/
theorem witness_AdmissibleTables :
    tt1.admissible = true ∧ { tt1 with pfx := [⟨1, 0x8#4, "x"⟩, ⟨8, 0x2#4, "y"⟩] }.admissible = true ∧
    (nibbleAt 0x87D7D7D7D00200#56 0).getLsbD 3 = true ∧ (nibbleAt 0x87D7D7D7D00200#56 11).getLsbD 1 = true := by decide

/-- For EachFrameGivesItsReading. -/
theorem witness_StepHypothesis : ∃ t, step (onPort 0x1E0#12 ready) = .next t :=
  (stepLeaves_iff _ (fun _ => true) (by decide)).imp fun _ h => h.1

theorem witness_TablesAreNeverWritten : ∃ t, exec .rst three = .next t := ⟨_, rfl⟩

theorem witness_StepKeepsTheInvariant : ready.Inv ∧ ∃ t, step (onPort 0x1E0#12 ready) = .next t :=
  ⟨⟨by decide, by decide, by rfl, by decide⟩, witness_StepHypothesis⟩

theorem witness_WindowFollowsTheSourceBuffer :
    BufferRel [⟨⟨11⟩, 0x11#8⟩, ⟨⟨12⟩, 0x22#8⟩, ⟨⟨13⟩, 0x33#8⟩] three ∧ three.term = .run ∧
    carried (.fterm 0x0#4) = some (0xE#4, 0x0#4) := by unfold BufferRel; decide

/-- For AnyBufferCapacityEmitsTheSame, ClearingChangesNoFrame and RunPositionDesignIsEquivalent. -/
theorem witness_Fresh : (stateOf [] 0#4).Fresh ∧ 14 ≤ 14 := by unfold State.Fresh; decide

theorem witness_FrameIsTheFourteenNewestBytes :
    ((stateOf [] 0#4).Fresh ∧ BytesAndIdles (⟨0x0E5#12, ⟨0⟩⟩ :: thirteenBeats) ∧ (stateOf [] 0#4).cnt = 0#4) ∧
    ∃ s r, step r = .next s ∧ s.frame ≠ none := by
  obtain ⟨t, h, ht⟩ := stepLeaves_iff (onPort 0x1E0#12 ready) (·.frame.isSome) (by decide)
  exact ⟨by unfold State.Fresh; decide, t, _, h, fun h' => by simp [h'] at ht⟩

theorem witness_NoIndexRunNoFrame :
    (stateOf [] 0#4).Fresh ∧ (∀ l, l.IsInfix (bytesOf thirteenBeats) → indexes l ≠ indexRun) ∧
    (∀ y ∈ bytesOf [beat 0x05#8], byteIdx y.b = 0x0#4) := by
  refine ⟨by unfold State.Fresh; decide, fun l hl he => ?_, by decide⟩
  have h1 : l.length ≤ 13 := hl.length_le
  have h2 : l.length = 14 := by simpa [indexes, indexRun] using congrArg List.length he
  omega

/-- `three` is also a state in RUN for FrameLineIsRecognised. -/
theorem witness_FourteenIndexedBytesEmitTheirFrame :
    three.term = .run ∧ BytesAndIdles thirteenBeats ∧ (eventOf (beat 0xE0#8)).slot?.isSome = true ∧
    indexes (bytesOf (thirteenBeats ++ [beat 0xE0#8])) = indexRun := by decide

/-- `three` with its timestamps advanced by one. -/
theorem witness_AlikeStatesCannotBeToldApart :
    Alike (fun a => ⟨a.tick + 1⟩) three
      { three with window := Vector.ofFn fun k => Slot.mapTs (fun a => ⟨a.tick + 1⟩) three.window[k], frameTs := ⟨99⟩ } :=
  ⟨rfl, rfl, by decide, rfl⟩

theorem witness_WindowFollowsARingBuffer :
    14 ≤ 14 ∧ BufferRel [⟨⟨11⟩, 0x11#8⟩, ⟨⟨12⟩, 0x22#8⟩, ⟨⟨13⟩, 0x33#8⟩] three ∧ three.term = .run ∧
    carried (.fidx4 0x0#4) = some (0x4#4, 0x0#4) := by unfold BufferRel; decide

/-- Both ways the window can stand in the uncleared buffer: it holds all of it, or it stands after a terminator. -/
theorem witness_WindowFollowsTheUnclearedBuffer :
    UnclearedRel [⟨⟨11⟩, 0x11#8⟩, ⟨⟨12⟩, 0x22#8⟩, ⟨⟨13⟩, 0x33#8⟩] three ∧
    UnclearedRel [⟨⟨9⟩, 0xD0#8⟩, ⟨⟨10⟩, 0xE0#8⟩, ⟨⟨11⟩, 0x11#8⟩, ⟨⟨12⟩, 0x22#8⟩, ⟨⟨13⟩, 0x33#8⟩] three ∧
    three.term = .run ∧ carried (.fterm 0x0#4) = some (0xE#4, 0x0#4) :=
  ⟨⟨by decide, by decide, .inl (by decide)⟩,
   ⟨by decide, by decide, .inr ⟨[⟨⟨9⟩, 0xD0#8⟩], ⟨⟨10⟩, 0xE0#8⟩, by decide, by decide⟩⟩, by decide, by decide⟩

/-- `three` stands at run position 3. -/
theorem witness_RunPositionFollowsTheWindow :
    RunPosRel ⟨3, (Vector.replicate 14 0#4).set 0 1 |>.set 1 2 |>.set 2 3, ⟨11⟩⟩ three ∧ three.term = .run ∧
    carried (.fidx4 0x0#4) = some (0x4#4, 0x0#4) := by
  refine ⟨⟨by decide, by decide, by decide, by decide, fun x hx => ?_, fun q _ hq _ => ?_⟩, by decide, by decide⟩
  · have h : (lastEntries 3 three.window.toList).head? = some ⟨⟨11⟩, 0x11#8⟩ := by decide
    rw [h] at hx; cases hx; rfl
  · have h : three.cnt.toNat = 3 := by decide
    show q ≤ 3
    omega

/-- The post-reset state, a finite sequence without and one with a terminal event (and events behind it), and both kinds of
infinite sequence. -/
theorem witness_RunsAreOverAtTheirEnd :
    State.reset.PostReset ∧ (∀ x ∈ thirteenBeats, ¬EndsStream x) ∧
    (∀ x ∈ [beat 0x11#8], ¬EndsStream x) ∧ eventOf ⟨0x3E0#12, ⟨0⟩⟩ = .eos ∧ eventOf ⟨0x600#12, ⟨0⟩⟩ = .ioErr ∧
    (∀ n, ¬EndsStream ((fun _ : Nat => beat 0x11#8) n)) ∧ EndsStream ((fun _ : Nat => (⟨0x200#12, ⟨0⟩⟩ : InputBeat)) 0) :=
  ⟨⟨⟨rfl, rfl⟩, rfl⟩, by decide, by decide, by decide, by decide,
   fun _ => (by decide : ¬EndsStream (beat 0x11#8)), by decide⟩

/-- A run is over at the terminal event although a reset stands behind it. -/
theorem test_run_over_at_eos :
    ∃ os t, ToEnd three [⟨0x200#12, ⟨0⟩⟩, ⟨0x800#12, ⟨1⟩⟩] os t ∧ os.length = 1 ∧ t.termCode = 0b01#2 := by
  obtain ⟨t, h, ht⟩ := stepLeaves_iff (three.present ⟨0x200#12, ⟨0⟩⟩) (·.term == .eos) (by decide)
  have ht : t.term = .eos := by simpa using ht
  exact ⟨[t.obs], t, .beat (by decide) h (.finished (.inl (by simp [ht]))), rfl, by simp [State.termCode, ht, TermStatus.code]⟩

end Sys2Proof.Tests
end

section
/-! PROOFS. The step as a composition, its totality, and the run over a list of beats (00_scope.md R2, R19; 60_exceptions.md
R136, R137). -/

namespace Sys2Proof.Proofs

open Sys2Proof Sys2Proof.Machine

/-! ### Decoding the port's word from its bytes -/

/-- The two bytes of an input word hold zero in the four bits beyond the port, so they decode to the word's event (30_encoding.md R67). -/
theorem decodeBytes_input (w : InputWord) : decodeBytes (Encoded.input w).bytes = .ok (decodeInput w) := by
  have beyondPort : (0#4 ++ w.extractLsb' 8 4 : Byte).extractLsb' 4 4 = 0#4 := BitVec.extractLsb'_append_eq_left
  have onPort : (0#4 ++ w.extractLsb' 8 4 : Byte).extractLsb' 0 4 ++ w.extractLsb' 0 8 = w := by
    rw [BitVec.extractLsb'_append_eq_right, BitVec.extractLsb'_append_extractLsb'_eq_extractLsb' (by decide)]
    exact BitVec.extractLsb'_eq_self
  simp only [Encoded.bytes, decodeBytes, if_pos beyondPort, onPort]

/-! ### The step -/

/-- Every operation goes on: no arm of `exec` faults or refuses (60_exceptions.md R136). -/
theorem exec_goesOn (i : Instr) (s : State) : ∃ t, exec i s = .next t := by
  cases i <;> exact ⟨_, rfl⟩

/-- DECODE drives the Reading port with its operand (41_decoder.md R105). -/
@[simp] theorem exec_decode (F : FrameWord) (s : State) : exec (.decode F) s = .next (driveDec F s) := rfl

/-- A step is the port's event, then DEC driven with the frame register that event leaves, then the next beat. -/
theorem step_of_exec {s s1 : State} (h : exec (fetchEvent s) s = .next s1) :
    step s = .next (advanceInput (driveDec s1.frameD s1)) := by
  simp [step, h, fetchDecode, decodeFrameWord]

/-- Every step goes on (60_exceptions.md R136). -/
theorem step_goesOn (s : State) : ∃ t, step s = .next t := by
  obtain ⟨s1, event⟩ := exec_goesOn (fetchEvent s) s
  exact ⟨_, step_of_exec event⟩

/-- Settles O11: the bytes on the port decode to the event `step` fetches, and `step_of_exec` is the composition. -/
theorem stepRunsDecodedEventThenDecode : Obligations.StepRunsDecodedEventThenDecode := by
  unfold Obligations.StepRunsDecodedEventThenDecode
  intro s i decoded
  obtain rfl : fetchEvent s = i := Except.ok.inj ((decodeBytes_input s.inWord).symm.trans decoded)
  obtain ⟨s1, event⟩ := exec_goesOn (fetchEvent s) s
  exact ⟨s1, driveDec s1.frameD s1, event, exec_decode s1.frameD s1, step_of_exec event⟩

/-! ### The run over a list of beats -/

/-- Every list of beats has a run, since no step stops. -/
theorem run_exists (xs : List InputBeat) (s : State) : ∃ os t, Run s xs os t := by
  induction xs generalizing s with
  | nil => exact ⟨[], s, .done s⟩
  | cons x xs ih =>
    obtain ⟨s1, first⟩ := step_goesOn (s.present x)
    obtain ⟨os, t, rest⟩ := ih s1
    exact ⟨s1.obs :: os, t, .beat first rest⟩

/-- A run shows one observation a beat (00_scope.md R19). -/
theorem run_length {s t : State} {xs : List InputBeat} {os : List Obs} (h : Run s xs os t) : os.length = xs.length := by
  induction h with
  | done => rfl
  | beat _ _ ih => simp [ih]

/-- A run is determined by where it starts and the beats it takes, since `step` is a function. -/
theorem run_unique {s t t' : State} {xs : List InputBeat} {os os' : List Obs} (h : Run s xs os t) (h' : Run s xs os' t') :
    os' = os ∧ t' = t := by
  induction h generalizing os' with
  | done s => exact run_nil_iff.mp h'
  | beat first _ ih =>
    obtain ⟨s1', os1', first', rfl, rest'⟩ := run_cons_iff.mp h'
    obtain rfl := Host.Outcome.next.inj (first.symm.trans first')
    obtain ⟨rfl, rfl⟩ := ih rest'
    exact ⟨rfl, rfl⟩

/-- Settles O13: `run_exists` by induction on the beats, `run_unique` by induction on the run. -/
theorem everyStreamHasOneRun : Obligations.EveryStreamHasOneRun := by
  unfold Obligations.EveryStreamHasOneRun
  intro xs s
  obtain ⟨os, t, run⟩ := run_exists xs s
  exact ⟨os, t, run, run_length run, fun _ _ other => run_unique run other⟩

end Sys2Proof.Proofs
end

section
/-! PROOFS. What the event on the port can do to the machine, and what follows for its state: the invariant, the frame register, the
state after reset, and the states no future event tells apart (10_state.md R22, R25, R35, R39; 60_exceptions.md R131). -/

namespace Sys2Proof.Proofs

open Sys2Proof Sys2Proof.Machine

/-! ### The event on the port -/

@[simp] theorem exec_idle (s : State) : exec .idle s = .next (clearFrameValid s) := rfl
@[simp] theorem exec_eos (s : State) : exec .eos s = .next (endStream .eos s) := rfl
@[simp] theorem exec_ioerr (s : State) : exec .ioerr s = .next (endStream .ioErr s) := rfl
@[simp] theorem exec_rst (s : State) : exec .rst s = .next (takeReset s) := rfl

/-- The frame-index nibble of a byte is the nibble it was built with (20_memory.md R46). -/
@[simp] theorem byteIdx_mkByte (idx dat : Nibble) : byteIdx (mkByte idx dat) = idx := BitVec.extractLsb'_append_eq_left

/-- The check of R90 asks for a terminator as the newest byte, so a byte of any other class is absorbed as a terminator that does not
match: R86, R87 and R89 are the branch of R88 without a match. -/
theorem absorb_eq_absorbTerminator {b : Byte} (s : State) (h : byteIdx b ≠ 0xE#4) : absorb b s = absorbTerminator b s := by
  have noMatch : ¬Matches (pushedWindow b s) (bumpCount s.cnt) := fun m => h m.2.1
  by_cases run : s.term = .run
  · rw [absorb_run b s run, absorbTerminator_noMatch b s run noMatch]
  · rw [absorb_ended b s run, absorbTerminator_ended b s run]

/-- A byte class other than the terminator's absorbs its byte (40_synchronizer.md R86, R87, R89). -/
theorem exec_byteInstr_of_ne (idx dat : Nibble) (s : State) (h : idx ≠ 0xE#4) :
    exec (byteInstr idx dat) s = .next (absorb (mkByte idx dat) s) := by
  obtain ⟨⟨n, hn⟩⟩ := idx
  have notFourteen : n ≠ 14 := by rintro rfl; exact h rfl
  obtain below | rfl : n < 14 ∨ n = 15 := by omega
  · interval_cases n <;> rfl
  · rfl

/-- Every byte class does what R88 says of the terminator, whose check fails for all the others. -/
@[simp] theorem exec_byteInstr (idx dat : Nibble) (s : State) :
    exec (byteInstr idx dat) s = .next (absorbTerminator (mkByte idx dat) s) := by
  by_cases h : idx = 0xE#4
  · subst h; rfl
  · rw [exec_byteInstr_of_ne idx dat s h, absorb_eq_absorbTerminator s (by simpa using h)]

/-- The port holds one of the events of 10_state.md R30; it never holds DECODE. -/
theorem fetchEvent_cases (s : State) :
    fetchEvent s = .idle ∨ (∃ idx dat, fetchEvent s = byteInstr idx dat) ∨ fetchEvent s = .eos ∨ fetchEvent s = .ioerr ∨
      fetchEvent s = .rst := by
  unfold fetchEvent decodeInput
  split_ifs
  · exact .inr (.inr (.inr (.inr rfl)))
  · exact .inr (.inr (.inr (.inl rfl)))
  · exact .inr (.inr (.inl rfl))
  · exact .inr (.inl ⟨_, _, rfl⟩)
  · exact .inl rfl

/-- The five things the event on the port can do to a state (40_synchronizer.md R86 to R98), each with its event and guard. -/
inductive EventEffect (s : State) : State → Prop where
  /-- IDLE, or an event that the terminal state ignores (R93, R98) -/
  | cleared (ignored : fetchEvent s = .idle ∨ s.term ≠ .run) : EventEffect s (clearFrameValid s)
  /-- a byte that completes no frame (R86, R87, R88, R89) -/
  | retained (idx dat : Nibble) (event : fetchEvent s = byteInstr idx dat) (run : s.term = .run)
      (noMatch : ¬Matches (pushedWindow (mkByte idx dat) s) (bumpCount s.cnt)) : EventEffect s (retain (mkByte idx dat) s)
  /-- the terminator of a frame (R88, R91, R92) -/
  | recognised (idx dat : Nibble) (event : fetchEvent s = byteInstr idx dat) (run : s.term = .run)
      (complete : Matches (pushedWindow (mkByte idx dat) s) (bumpCount s.cnt)) : EventEffect s (recognise (mkByte idx dat) s)
  /-- EOS or IOERR (R94, R96) -/
  | ended (code : TermStatus) (event : fetchEvent s = .eos ∧ code = .eos ∨ fetchEvent s = .ioerr ∧ code = .ioErr)
      (run : s.term = .run) : EventEffect s (raiseTerminal code s)
  /-- RST (R97) -/
  | reset (event : fetchEvent s = .rst) : EventEffect s (takeReset s)

/-- What R88 makes of the byte on the port is one of the effects. -/
theorem eventEffect_absorbTerminator {s : State} {idx dat : Nibble} (event : fetchEvent s = byteInstr idx dat) :
    EventEffect s (absorbTerminator (mkByte idx dat) s) := by
  obtain ⟨run, complete, eq⟩ | ⟨run, noMatch, eq⟩ | ⟨terminal, eq⟩ := absorbTerminator_cases (mkByte idx dat) s <;> rw [eq]
  · exact .recognised idx dat event run complete
  · exact .retained idx dat event run noMatch
  · exact .cleared (.inr terminal)

/-- What the terminal event on the port does is one of the effects. -/
theorem eventEffect_endStream {s : State} {code : TermStatus}
    (event : fetchEvent s = .eos ∧ code = .eos ∨ fetchEvent s = .ioerr ∧ code = .ioErr) :
    EventEffect s (endStream code s) := by
  by_cases run : s.term = .run
  · rw [endStream_run code s run]; exact .ended code event run
  · rw [endStream_ended code s run]; exact .cleared (.inr run)

/-- The event on the port has one of the effects. -/
theorem exec_fetchEvent_effect (s : State) : ∃ s1, exec (fetchEvent s) s = .next s1 ∧ EventEffect s s1 := by
  obtain event | ⟨idx, dat, event⟩ | event | event | event := fetchEvent_cases s
  · exact ⟨_, by rw [event, exec_idle], .cleared (.inl event)⟩
  · exact ⟨_, by rw [event, exec_byteInstr], eventEffect_absorbTerminator event⟩
  · exact ⟨_, by rw [event, exec_eos], eventEffect_endStream (.inl ⟨event, rfl⟩)⟩
  · exact ⟨_, by rw [event, exec_ioerr], eventEffect_endStream (.inr ⟨event, rfl⟩)⟩
  · exact ⟨_, by rw [event, exec_rst], .reset event⟩

/-- Everything a step can do: an effect of the event, DEC driven with the frame register it leaves, and the next beat. -/
theorem step_effect {s t : State} (h : step s = .next t) :
    ∃ s1, EventEffect s s1 ∧ t = advanceInput (driveDec s1.frameD s1) := by
  obtain ⟨s1, event, effect⟩ := exec_fetchEvent_effect s
  exact ⟨s1, effect, Host.Outcome.next.inj (h.symm.trans (step_of_exec event))⟩

/-! ### The invariant -/

section
variable {s s1 : State}

/-- No event writes the tables (20_memory.md R50). -/
theorem EventEffect.tables_eq (h : EventEffect s s1) : s1.tables = s.tables := by cases h <;> rfl

/-- The count stays in range: PUSH saturates at 14, and the other effects keep the count or clear it (10_state.md R22). -/
theorem EventEffect.cnt_le (h : EventEffect s s1) (count : s.cnt.toNat ≤ 14) : s1.cnt.toNat ≤ 14 := by
  cases h with
  | cleared | ended => exact count
  | retained => exact bumpCount_le s.cnt
  | recognised | reset => exact Nat.zero_le 14

/-- Only a recognition, in RUN and with the window cleared, leaves a Frame out (40_synchronizer.md R92, 60_exceptions.md R131). -/
theorem EventEffect.pulse (h : EventEffect s s1) (valid : s1.frameValid = true) : s1.cnt = 0#4 ∧ s1.term = .run := by
  cases h with
  | cleared | retained | ended | reset => cases valid
  | recognised _ _ _ run => exact ⟨rfl, run⟩

end

/-- Settles O45: the event keeps the count's range and the tables and bounds the pulse, and DEC drives the port anew. -/
theorem stepKeepsTheInvariant : Obligations.StepKeepsTheInvariant := by
  unfold Obligations.StepKeepsTheInvariant
  intro s t inv h
  obtain ⟨s1, effect, rfl⟩ := step_effect h
  exact {
    count := by simpa using effect.cnt_le inv.count
    pulse := by simpa using effect.pulse
    port := by simp
    tables := by simpa [effect.tables_eq] using inv.tables }

/-- The machine's tables are admissible whichever the uninterpreted ones are (20_memory.md R59). -/
theorem config_tables_admissible : Config.tables.admissible = true := by
  unfold Config.tables
  split
  case isTrue h => exact h
  case isFalse => decide

/-- Settles O46: no Frame is out and the count is 0; the tables are the machine's. -/
theorem resetMeetsTheInvariant : Obligations.ResetMeetsTheInvariant := by
  unfold Obligations.ResetMeetsTheInvariant
  exact {
    count := Nat.zero_le 14
    pulse := nofun
    port := rfl
    tables := config_tables_admissible }

/-- Settles O29: each value is the one `State.reset` is written with, or an output read from it. -/
theorem stateAfterReset : Obligations.StateAfterReset := by
  unfold Obligations.StateAfterReset
  exact ⟨rfl, rfl, rfl, rfl, rfl, rfl, rfl⟩

/-! ### The frame register -/

/-- SYNC has no Frame out exactly while `frame_valid` is 0 (10_state.md R31). -/
@[simp] theorem frame_eq_none_iff (s : State) : s.frame = none ↔ s.frameValid = false := by
  simp [State.frame]

/-- Only a recognition and RST write the frame register (10_state.md R25). -/
theorem EventEffect.frameRegister_eq {s s1 : State} (h : EventEffect s s1) (noReset : fetchEvent s ≠ .rst)
    (noFrame : s1.frameValid = false) : s1.frameD = s.frameD ∧ s1.frameTs = s.frameTs := by
  cases h with
  | cleared | retained | ended => exact ⟨rfl, rfl⟩
  | recognised => cases noFrame
  | reset event => exact absurd event noReset

/-- Settles O27: neither DEC nor the next beat touches the frame register, so it is the event's effect that keeps it. -/
theorem frameRegisterHoldsUntilNextFrame : Obligations.FrameRegisterHoldsUntilNextFrame := by
  unfold Obligations.FrameRegisterHoldsUntilNextFrame
  intro s t h noReset noFrame
  obtain ⟨s1, effect, rfl⟩ := step_effect h
  simpa using effect.frameRegister_eq noReset (by simpa using noFrame)

/-! ### A window with its timestamps renamed -/

/-- A renaming of timestamps leaves the packed data nibbles (40_synchronizer.md R91). -/
@[simp] theorem packFrame_map_mapTs (f : TS → TS) (w : Vector Slot 14) : packFrame (w.map (Slot.mapTs f)) = packFrame w := by
  simp [packFrame, Slot.mapTs]

/-- MATCH looks at no timestamp (40_synchronizer.md R90). -/
@[simp] theorem matches_map_mapTs (f : TS → TS) (w : Vector Slot 14) (c : BitVec 4) :
    Matches (w.map (Slot.mapTs f)) c ↔ Matches w c := by
  simp [Matches, IndexesInOrder, Slot.mapTs]

/-! ### States no future event tells apart -/

/-- The Frame with its timestamp renamed. -/
def renameFrame (f : TS → TS) (fr : Frame) : Frame := ⟨fr.word, f fr.ts⟩

/-- Two states that are alike and have the same Frame out, up to the renaming: what an event leaves of alike states. -/
structure AlikeWithFrame (f : TS → TS) (s t : State) : Prop extends Alike f s t where
  frame : t.frame = s.frame.map (renameFrame f)

section
variable {f : TS → TS} {s t : State}

/-- The live slots of two pushed windows correspond when those of the windows did (40_synchronizer.md R85). -/
theorem alike_pushedWindow_live (h : Alike f s t) (ts : t.inTs = f s.inTs) (b : Byte) (k : Fin 14)
    (live : 14 ≤ k.val + (bumpCount s.cnt).toNat) : (pushedWindow b t)[k] = (pushedWindow b s)[k].mapTs f := by
  rcases Nat.lt_or_ge k.val 13 with below | newest
  · have above : 14 ≤ k.val + 1 + s.cnt.toNat := by rw [bumpCount_toNat] at live; omega
    have slots := h.live ⟨k.val + 1, by omega⟩ above
    simpa [pushedWindow, pushWindow_below _ _ k.val below] using slots
  · obtain rfl : k = 13 := by omega
    simp [pushedWindow, pushWindow_newest, Slot.mapTs, ts]

/-- Once the count is 14 every slot is live, and one window is the other renamed. -/
theorem alike_pushedWindow_full (h : Alike f s t) (ts : t.inTs = f s.inTs) (b : Byte) (full : bumpCount s.cnt = 14#4) :
    pushedWindow b t = (pushedWindow b s).map (Slot.mapTs f) := by
  refine Vector.ext fun k hk => ?_
  simpa using alike_pushedWindow_live h ts b ⟨k, hk⟩ (by simp [full])

/-- A byte completes a frame in both of two alike states or in neither. -/
theorem alike_matches_iff (h : Alike f s t) (ts : t.inTs = f s.inTs) (b : Byte) :
    Matches (pushedWindow b t) (bumpCount t.cnt) ↔ Matches (pushedWindow b s) (bumpCount s.cnt) := by
  rw [h.cnt]
  by_cases full : bumpCount s.cnt = 14#4
  · rw [alike_pushedWindow_full h ts b full, matches_map_mapTs]
  · exact ⟨fun m => absurd m.1 full, fun m => absurd m.1 full⟩

/-- A state with no Frame out shows none of it, renamed or not. -/
theorem alike_withoutFrame (h : Alike f s t) (hs : s.frameValid = false) (ht : t.frameValid = false) : AlikeWithFrame f s t :=
  { h with frame := by simp [State.frame, hs, ht] }

/-- An ignored event (40_synchronizer.md R93, R98) keeps alike states alike. -/
theorem alike_clearFrameValid (h : Alike f s t) : AlikeWithFrame f (clearFrameValid s) (clearFrameValid t) :=
  alike_withoutFrame ⟨h.term, h.cnt, h.live, h.tables⟩ rfl rfl

/-- A terminal event (40_synchronizer.md R94, R96) in RUN touches neither the count nor the window. -/
theorem alike_raiseTerminal (h : Alike f s t) (code : TermStatus) :
    AlikeWithFrame f (raiseTerminal code s) (raiseTerminal code t) :=
  alike_withoutFrame ⟨rfl, h.cnt, h.live, h.tables⟩ rfl rfl

/-- RST leaves a window without live slots, so the free values it draws are not compared. -/
theorem alike_takeReset (h : Alike f s t) : AlikeWithFrame f (takeReset s) (takeReset t) :=
  alike_withoutFrame ⟨rfl, rfl, fun k live => by simp at live; omega, h.tables⟩ rfl rfl

/-- A byte that completes no frame enters both windows as the newest live pair. -/
theorem alike_retain (h : Alike f s t) (ts : t.inTs = f s.inTs) (b : Byte) : AlikeWithFrame f (retain b s) (retain b t) :=
  alike_withoutFrame ⟨h.term, congrArg bumpCount h.cnt, alike_pushedWindow_live h ts b, h.tables⟩ rfl rfl

/-- The Frame emitted is packed from slots that correspond, and stamped with the renamed timestamp of the oldest. -/
theorem alike_recognise (h : Alike f s t) (ts : t.inTs = f s.inTs) (b : Byte) (full : bumpCount s.cnt = 14#4) :
    AlikeWithFrame f (recognise b s) (recognise b t) where
  term := h.term
  cnt := rfl
  live k live := by simp at live; omega
  tables := h.tables
  frame := by simp [State.frame, renameFrame, alike_pushedWindow_full h ts b full, Slot.mapTs]

/-- Alike states are in RUN together or in the same terminal state, so they take a terminal event alike. -/
theorem alike_endStream (h : Alike f s t) (code : TermStatus) : AlikeWithFrame f (endStream code s) (endStream code t) := by
  by_cases run : s.term = .run
  · rw [endStream_run code s run, endStream_run code t (h.term.trans run)]
    exact alike_raiseTerminal h code
  · rw [endStream_ended code s run, endStream_ended code t (h.term.trans_ne run)]
    exact alike_clearFrameValid h

/-- A byte is checked with the same result in alike states, so they take the same branch of R88. -/
theorem alike_absorbTerminator (h : Alike f s t) (ts : t.inTs = f s.inTs) (b : Byte) :
    AlikeWithFrame f (absorbTerminator b s) (absorbTerminator b t) := by
  obtain ⟨run, complete, eq⟩ | ⟨run, noMatch, eq⟩ | ⟨terminal, eq⟩ := absorbTerminator_cases b s <;> rw [eq]
  · rw [absorbTerminator_match b t (h.term.trans run) ((alike_matches_iff h ts b).mpr complete)]
    exact alike_recognise h ts b complete.1
  · rw [absorbTerminator_noMatch b t (h.term.trans run) (mt (alike_matches_iff h ts b).mp noMatch)]
    exact alike_retain h ts b
  · rw [absorbTerminator_ended b t (h.term.trans_ne terminal)]
    exact alike_clearFrameValid h

/-- The same event on both ports, its timestamp renamed on one, leaves alike states alike and emits the same Frame. -/
theorem alike_exec_fetchEvent (h : Alike f s t) (word : t.inWord = s.inWord) (ts : t.inTs = f s.inTs) :
    ∃ s1 t1, exec (fetchEvent s) s = .next s1 ∧ exec (fetchEvent t) t = .next t1 ∧ AlikeWithFrame f s1 t1 := by
  have same : fetchEvent t = fetchEvent s := congrArg decodeInput word
  rw [same]
  obtain event | ⟨idx, dat, event⟩ | event | event | event := fetchEvent_cases s <;> rw [event]
  · exact ⟨_, _, rfl, rfl, alike_clearFrameValid h⟩
  · exact ⟨_, _, exec_byteInstr idx dat s, exec_byteInstr idx dat t, alike_absorbTerminator h ts _⟩
  · exact ⟨_, _, rfl, rfl, alike_endStream h _⟩
  · exact ⟨_, _, rfl, rfl, alike_endStream h _⟩
  · exact ⟨_, _, rfl, rfl, alike_takeReset h⟩

end

/-! ### What is seen of alike states -/

/-- Where the port is DEC's function of the frame register, the Reading is the decode of the Frame (10_state.md R32). -/
theorem reading_of_port {s : State} (port : s.dec = decPort s.tables s.frameD s.frameTs s.frameValid) :
    s.reading = s.frame.map (decodeReading s.tables) := by
  cases valid : s.frameValid <;> simp [State.reading, State.frame, port, valid, decodeReading]

/-- DEC copies the frame's timestamp and computes nothing else from it (41_decoder.md R116), so a Frame and its decode renamed are
the renamed Frame and its decode. -/
theorem mapTs_frameAndDecode (f : TS → TS) (T : Tables) (frame : Option Frame) (code : BitVec 2) :
    Obs.mapTs f ⟨frame, frame.map (decodeReading T), code⟩
      = ⟨frame.map (renameFrame f), (frame.map (renameFrame f)).map (decodeReading T), code⟩ := by
  cases frame with
  | none => rfl
  | some fr => rfl

/-- A step's outputs after its event's: the Frame, its decode, and the code. -/
theorem obs_afterEvent (s : State) :
    (advanceInput (driveDec s.frameD s)).obs = ⟨s.frame, s.frame.map (decodeReading s.tables), s.term.code⟩ := by
  have reading := reading_of_port (s := advanceInput (driveDec s.frameD s)) (by simp)
  simp [State.obs, reading, State.frame, State.termCode]

section
variable {f : TS → TS} {s t : State}

/-- DEC and the next beat keep states alike. -/
theorem alike_afterEvent (h : Alike f s t) :
    Alike f (advanceInput (driveDec s.frameD s)) (advanceInput (driveDec t.frameD t)) :=
  ⟨by simpa using h.term, by simpa using h.cnt, by simpa using h.live, by simpa using h.tables⟩

/-- What is seen after the event in alike states is the same, renamed. -/
theorem alike_obs_afterEvent (h : AlikeWithFrame f s t) :
    (advanceInput (driveDec t.frameD t)).obs = (advanceInput (driveDec s.frameD s)).obs.mapTs f := by
  rw [obs_afterEvent, obs_afterEvent, mapTs_frameAndDecode, h.frame, h.tables, h.term]

/-- The unwinding lemma for one beat: alike states show the same, renamed, and stay alike. -/
theorem alike_step_present (h : Alike f s t) (x : InputBeat) :
    ∃ s1 t1, step (s.present x) = .next s1 ∧ step (t.present (x.mapTs f)) = .next t1 ∧ t1.obs = s1.obs.mapTs f ∧
      Alike f s1 t1 := by
  have presented : Alike f (s.present x) (t.present (x.mapTs f)) := ⟨h.term, h.cnt, h.live, h.tables⟩
  obtain ⟨s1, t1, eventS, eventT, left⟩ := alike_exec_fetchEvent presented rfl rfl
  exact ⟨_, _, step_of_exec eventS, step_of_exec eventT, alike_obs_afterEvent left, alike_afterEvent left.toAlike⟩

end

/-- Settles O57: by induction on the beats, with the unwinding lemma `alike_step_present` for each. -/
theorem alikeStatesCannotBeToldApart : Obligations.AlikeStatesCannotBeToldApart := by
  unfold Obligations.AlikeStatesCannotBeToldApart
  intro f s t xs h
  induction xs generalizing s t with
  | nil => exact ⟨[], s, t, .done s, .done t, h⟩
  | cons x xs ih =>
    obtain ⟨s1, t1, firstS, firstT, seen, h1⟩ := alike_step_present h x
    obtain ⟨os, s', t', restS, restT, h'⟩ := ih s1 t1 h1
    refine ⟨s1.obs :: os, s', t', .beat firstS restS, ?_, h'⟩
    rw [List.map_cons, List.map_cons, ← seen]
    exact .beat firstT restT

end Sys2Proof.Proofs
end

section
/-! PROOFS. The memories of the machine (20_memory.md): the nibbles of a byte (R46), the decode tables, which nothing writes (R50)
and which meet R52 to R59, the readings those constraints fix, and the beats waiting with the byte source (R62). -/

namespace Sys2Proof.Proofs

open Sys2Proof Sys2Proof.Machine Sys2Proof.Claims

/-! ### Beats waiting with the byte source -/

/-- The state with other beats waiting behind the port. -/
def waitingWith (ps : List InputBeat) (s : State) : State := { s with pending := ps }

/-- The state with the beat `x` on the port and `xs` waiting behind it. -/
def queued (x : InputBeat) (xs : List InputBeat) (s : State) : State := waitingWith xs (s.present x)

/-- A byte is checked and stored without regard to what waits (40_synchronizer.md R88). -/
theorem absorbTerminator_waitingWith (ps : List InputBeat) (b : Byte) (s : State) :
    absorbTerminator b (waitingWith ps s) = waitingWith ps (absorbTerminator b s) := by
  obtain ⟨run, complete, eq⟩ | ⟨run, noMatch, eq⟩ | ⟨terminal, eq⟩ := absorbTerminator_cases b s <;> rw [eq]
  · exact absorbTerminator_match b (waitingWith ps s) run complete
  · exact absorbTerminator_noMatch b (waitingWith ps s) run noMatch
  · exact absorbTerminator_ended b (waitingWith ps s) terminal

/-- A terminal event is taken without regard to what waits (40_synchronizer.md R94, R96). -/
theorem endStream_waitingWith (ps : List InputBeat) (code : TermStatus) (s : State) :
    endStream code (waitingWith ps s) = waitingWith ps (endStream code s) := by
  by_cases run : s.term = .run
  · rw [endStream_run code s run]; exact endStream_run code (waitingWith ps s) run
  · rw [endStream_ended code s run]; exact endStream_ended code (waitingWith ps s) run

/-- The event on the port does the same whatever waits behind it. -/
theorem exec_fetchEvent_waitingWith {s s1 : State} (h : exec (fetchEvent s) s = .next s1) (ps : List InputBeat) :
    exec (fetchEvent (waitingWith ps s)) (waitingWith ps s) = .next (waitingWith ps s1) := by
  have samePort : fetchEvent (waitingWith ps s) = fetchEvent s := rfl
  rw [samePort]
  obtain event | ⟨idx, dat, event⟩ | event | event | event := fetchEvent_cases s <;> rw [event] at h ⊢
  · cases h; rfl
  · rw [exec_byteInstr] at h ⊢
    cases h; rw [absorbTerminator_waitingWith]
  · cases h; rw [exec_eos, endStream_waitingWith]
  · cases h; rw [exec_ioerr, endStream_waitingWith]
  · cases h; rfl

/-- No event touches the port's timestamp (10_state.md R29). -/
theorem EventEffect.inTs_eq {s s1 : State} (h : EventEffect s s1) : s1.inTs = s.inTs := by cases h <;> rfl

/-- The byte source moves its first waiting beat to the port, or the IDLE word when none waits (assumption 8). -/
theorem advanceInput_waitingWith (ps : List InputBeat) (s : State) :
    advanceInput (waitingWith ps s) = queued (ps.headD ⟨0#12, s.inTs⟩) ps.tail s := by
  cases ps with
  | nil => exact advanceInput_of_nil _ rfl
  | cons p ps => exact advanceInput_of_cons _ p ps rfl

/-- The beat that the byte source moved to the port is forgotten when the port and the queue are set anew. -/
@[simp] theorem queued_advanceInput (x : InputBeat) (xs : List InputBeat) (s : State) :
    queued x xs (advanceInput s) = queued x xs s := by
  unfold advanceInput; split <;> rfl

/-- A step with `ps` waiting leaves the machine as it does with anything else waiting, and the next beat on the port. -/
theorem step_waitingWith {s t : State} (h : step s = .next t) (ps : List InputBeat) :
    step (waitingWith ps s) = .next (queued (ps.headD ⟨0#12, s.inTs⟩) ps.tail t) := by
  obtain ⟨s1, event, effect⟩ := exec_fetchEvent_effect s
  obtain rfl : advanceInput (driveDec s1.frameD s1) = t := Host.Outcome.next.inj ((step_of_exec event).symm.trans h)
  rw [step_of_exec (exec_fetchEvent_waitingWith event ps), queued_advanceInput, ← effect.inTs_eq]
  exact congrArg _ (advanceInput_waitingWith ps (driveDec s1.frameD s1))

/-- The host's run takes a step and goes on from where it leads. -/
theorem coreRun_succ {s t : State} (h : step s = .next t) (k : Nat) :
    Host.Core.run core (k + 1) s = Host.Core.run core k t := by
  have h' : core.step s = .next t := h
  simp only [Host.Core.run, h']

/-- The host's run over a queue ends where the run that presents each beat ends, with an empty queue. -/
theorem coreRun_queued (xs : List InputBeat) (x : InputBeat) {s t : State} {os : List Obs} (h : Run s (x :: xs) os t) :
    ∃ z, Host.Core.run core (xs.length + 1) (queued x xs s) = .next (queued z [] t) := by
  induction xs generalizing x s os with
  | nil =>
    obtain ⟨s1, os1, first, -, rest⟩ := run_cons_iff.mp h
    obtain ⟨-, rfl⟩ := run_nil_iff.mp rest
    exact ⟨⟨0#12, x.ts⟩, coreRun_succ (step_waitingWith first []) 0⟩
  | cons y ys ih =>
    obtain ⟨s1, os1, first, -, rest⟩ := run_cons_iff.mp h
    obtain ⟨z, ends⟩ := ih y rest
    exact ⟨z, (coreRun_succ (step_waitingWith first (y :: ys)) (ys.length + 1)).trans ends⟩

/-- Settles O14: by `coreRun_queued`, the two final states differ only in the port and the queue. -/
theorem pendingBeatsTakeEffectInOrder : Obligations.PendingBeatsTakeEffectInOrder := by
  unfold Obligations.PendingBeatsTakeEffectInOrder
  intro xs x s
  obtain ⟨os, t, run⟩ := run_exists (x :: xs) s
  obtain ⟨z, hostRun⟩ := coreRun_queued xs x run
  exact ⟨os, t, queued z [] t, run, hostRun, rfl, rfl, rfl, rfl, rfl, rfl, rfl, rfl, rfl, rfl, rfl⟩

/-! ### The constraints on the tables -/

/-- An admissible table meets each of the constraints of 20_memory.md R49 to R58. -/
theorem admissible_iff (T : Tables) : T.admissible = true ↔
    T.segRising = true ∧ T.segZero = true ∧ T.segHole = true ∧ T.keysUnique = true ∧ T.acThenRelative = true ∧
      T.optNamesDistinct = true ∧ T.keysQuiet = true := by
  simp [Tables.admissible, and_assoc]

/-- What R58 asks of one entry, as propositions. -/
theorem quiet_iff (e : KeyEntry) : e.quiet = true ↔
    (e.off.val ∈ [1, 3, 5, 7] → e.mask &&& 0x7#4 = 0#4) ∧ (e.off.val ∈ [2, 4, 6, 8] → e.mask &&& 0xD#4 = 0#4) := by
  simp [KeyEntry.quiet, imp_iff_not_or]

section
variable {T : Tables} (admissible : T.admissible = true)
include admissible

/-- R54: pattern 0x7D is mapped to `0`. -/
theorem segEntry_zero_of_admissible : segEntry T 0x7D#7 = some 0x30#8 := by
  obtain ⟨-, zero, -⟩ := (admissible_iff T).mp admissible
  simpa [Tables.segZero, Tables.segAt, segEntry] using zero

/-- R55: pattern 0x2A is unmapped. -/
theorem segEntry_hole_of_admissible : segEntry T 0x2A#7 = none := by
  obtain ⟨-, -, hole, -⟩ := (admissible_iff T).mp admissible
  simpa [Tables.segHole, Tables.segAt, segEntry] using hole

/-- R56: the `AC` entry stands before the `relative` entry. -/
theorem acThenRelative_of_admissible :
    ∃ i j : Fin 7, i < j ∧ T.opt[i] = ⟨0, 0x8#4, "AC"⟩ ∧ T.opt[j] = ⟨11, 0x2#4, "relative"⟩ := by
  obtain ⟨-, -, -, -, acRelative, -⟩ := (admissible_iff T).mp admissible
  exact of_decide_eq_true acRelative

/-- R57: the option names are distinct. -/
theorem optNames_nodup_of_admissible : (T.opt.toList.map KeyEntry.sym).Nodup := by
  obtain ⟨-, -, -, -, -, distinct, -⟩ := (admissible_iff T).mp admissible
  exact of_decide_eq_true distinct

/-- R58: every entry of a key table is quiet. -/
theorem quiet_of_admissible : ∀ e ∈ T.pfx ++ T.unit ++ T.opt.toList, e.quiet = true := by
  obtain ⟨-, -, -, -, -, -, quiet⟩ := (admissible_iff T).mp admissible
  simpa only [Tables.keysQuiet, ← List.all_append, List.all_eq_true] using quiet

end

/-- Settles O39: R54 and R55 are the two entries of the segment table that `romSeg` and `segKnown` look up. -/
theorem segmentPatternsTheSourceFixes : Obligations.SegmentPatternsTheSourceFixes := by
  unfold Obligations.SegmentPatternsTheSourceFixes
  intro T admissible
  have zero := segEntry_zero_of_admissible admissible
  have hole := segEntry_hole_of_admissible admissible
  simp [romSeg, segKnown, zero, hole]

/-- Settles O44: the machine's tables are the free ones where those are admissible, and the least ones otherwise. -/
theorem configuredTablesAreAdmissible : Obligations.ConfiguredTablesAreAdmissible := config_tables_admissible

/-! ### Nothing writes the tables -/

/-- A byte, absorbed or ignored, does not write the tables. -/
@[simp] theorem absorb_tables (b : Byte) (s : State) : (absorb b s).tables = s.tables := by
  by_cases run : s.term = .run
  · rw [absorb_run b s run, retain_tables]
  · rw [absorb_ended b s run, clearFrameValid_tables]

/-- A terminator, whether it completes a frame or not, does not write the tables. -/
@[simp] theorem absorbTerminator_tables (b : Byte) (s : State) : (absorbTerminator b s).tables = s.tables := by
  obtain ⟨-, -, eq⟩ | ⟨-, -, eq⟩ | ⟨-, eq⟩ := absorbTerminator_cases b s <;> rw [eq]
  · exact recognise_tables b s
  · exact retain_tables b s
  · exact clearFrameValid_tables s

/-- A terminal event does not write the tables. -/
@[simp] theorem endStream_tables (code : TermStatus) (s : State) : (endStream code s).tables = s.tables := by
  by_cases run : s.term = .run
  · rw [endStream_run code s run, raiseTerminal_tables]
  · rw [endStream_ended code s run, clearFrameValid_tables]

/-- No operation writes the tables (20_memory.md R50). -/
theorem exec_tables {i : Instr} {s t : State} (h : exec i s = .next t) : t.tables = s.tables := by
  cases i with
  | idle | rst | decode => cases h; rfl
  | noise0 | fidx1 | fidx2 | fidx3 | fidx4 | fidx5 | fidx6 | fidx7 | fidx8 | fidx9 | fidx10 | fidx11 | fidx12 | fidx13
  | noise15 => cases h; exact absorb_tables _ s
  | fterm => cases h; exact absorbTerminator_tables _ s
  | eos | ioerr => cases h; exact endStream_tables _ s

/-- Settles O43: an operation by `exec_tables`, and a step by the tables rule of its event's effect. -/
theorem tablesAreNeverWritten : Obligations.TablesAreNeverWritten := by
  unfold Obligations.TablesAreNeverWritten
  refine ⟨fun i s t h => exec_tables h, fun s t h => ?_⟩
  obtain ⟨s1, effect, rfl⟩ := step_effect h
  simpa using effect.tables_eq

/-! ### The options of a frame -/

/-- The option bits, each concatenated behind those of the later entries. -/
theorem optionBits_eq_concat (T : Tables) (F : FrameWord) :
    optionBits T F = BitVec.concat (BitVec.concat (BitVec.concat (BitVec.concat (BitVec.concat (BitVec.concat
      (BitVec.ofBool (keyMatch T.opt[6] F)) (keyMatch T.opt[5] F)) (keyMatch T.opt[4] F)) (keyMatch T.opt[3] F))
      (keyMatch T.opt[2] F)) (keyMatch T.opt[1] F)) (keyMatch T.opt[0] F) := rfl

/-- Option bit `j` is the match of entry `j` (41_decoder.md R115). -/
theorem optionBits_getLsbD (T : Tables) (F : FrameWord) (j : Nat) (h : j < 7) :
    (optionBits T F).getLsbD j = keyMatch T.opt[j] F := by
  interval_cases j <;> simp [optionBits_eq_concat, BitVec.getElem_concat]

/-- The option scan over entries with distinct new names appends the names of those that match. -/
theorem optionsFrom_of_distinct (F : FrameWord) (bits : BitVec 7) (es : List KeyEntry) (j : Nat) (o : List String)
    (distinct : (o ++ es.map KeyEntry.sym).Nodup)
    (matched : ∀ (k : Nat) (h : k < es.length), bits.getLsbD (j + k) = keyMatch es[k] F) :
    optionsFrom bits j o es = o ++ (es.filter fun e => keyMatch e F).map KeyEntry.sym := by
  induction es generalizing j o with
  | nil => simp
  | cons e es ih =>
    have first : bits.getLsbD j = keyMatch e F := matched 0 (by simp)
    have later : ∀ (k : Nat) (h : k < es.length), bits.getLsbD (j + 1 + k) = keyMatch es[k] F := fun k h => by
      rw [Nat.add_assoc, Nat.add_comm 1 k]
      exact matched (k + 1) (Nat.succ_lt_succ h)
    have isNew : e.sym ∉ o := fun mem => (List.nodup_append.mp distinct).2.2 _ mem _ (by simp) rfl
    rw [optionsFrom_cons, first]
    cases hit : keyMatch e F with
    | true =>
      have added := ih (j + 1) (o ++ [e.sym]) (by simpa using distinct) later
      simpa [isNew, hit] using added
    | false =>
      have passed := ih (j + 1) o (distinct.sublist (by simp)) later
      simpa [hit] using passed

/-- With distinct names the options are the names of the entries that match, in table order (41_decoder.md R114). -/
theorem options_of_distinct (T : Tables) (f : Frame) (distinct : (T.opt.toList.map KeyEntry.sym).Nodup) :
    (decodeReading T f).options = (T.opt.toList.filter fun e => keyMatch e f.word).map KeyEntry.sym :=
  optionsFrom_of_distinct f.word (optionBits T f.word) T.opt.toList 0 [] distinct fun k h => by
    simpa using optionBits_getLsbD T f.word k (by simpa using h)

/-- Two entries of the option table, in order, are a sublist of it. -/
theorem pair_sublist_of_lt (v : Vector KeyEntry 7) {i j : Fin 7} (h : i < j) : [v[i], v[j]].Sublist v.toList := by
  have positions : [i.cast v.length_toList.symm, j.cast v.length_toList.symm].Pairwise (· < ·) := by simpa using h
  simpa using List.map_getElem_sublist positions

/-- A key matches a frame that has a bit of the key's mask set at the key's offset (41_decoder.md R111). -/
theorem keyMatch_of_bit {e : KeyEntry} {F : FrameWord} (b : Nat) (data : (nibbleAt F e.off).getLsbD b = true)
    (mask : e.mask.getLsbD b = true) : keyMatch e F = true := by
  refine (keyMatch_iff e F).mpr fun zero => ?_
  have bit : (nibbleAt F e.off &&& e.mask).getLsbD b = true := by simp [data, mask]
  simp [zero] at bit

/-- Settles O41: the two entries are a sublist of the table, both match, and with distinct names the options are the names of the
entries that match. -/
theorem acComesBeforeRelative : Obligations.AcComesBeforeRelative := by
  unfold Obligations.AcComesBeforeRelative
  intro T admissible
  obtain ⟨i, j, before, ac, relative⟩ := acThenRelative_of_admissible admissible
  refine ⟨⟨i, j, before, ac, relative⟩, fun f bitAc bitRelative => ?_⟩
  have acMatches : keyMatch ⟨0, 0x8#4, "AC"⟩ f.word = true := keyMatch_of_bit 3 bitAc rfl
  have relativeMatches : keyMatch ⟨11, 0x2#4, "relative"⟩ f.word = true := keyMatch_of_bit 1 bitRelative rfl
  have inOrder := pair_sublist_of_lt T.opt before
  rw [ac, relative] at inOrder
  rw [options_of_distinct T f (optNames_nodup_of_admissible admissible)]
  simpa [acMatches, relativeMatches] using (inOrder.filter fun e => keyMatch e f.word).map KeyEntry.sym

/-! ### The frame of the digits `0000` -/

/-- The nibbles of the `0000` frame: 0x7D in each digit pair, and 0 elsewhere (20_memory.md R58). -/
theorem nibbleAt_zerosWord (k : Fin 14) : nibbleAt zerosWord k =
    if k.val ∈ [1, 3, 5, 7] then 0x7#4 else if k.val ∈ [2, 4, 6, 8] then 0xD#4 else 0x0#4 := by
  revert k; decide

/-- The masks R58 allows share no bit with the `0000` frame. -/
theorem keyMatch_zerosWord_of_quiet {e : KeyEntry} (h : e.quiet = true) : keyMatch e zerosWord = false := by
  obtain ⟨high, low⟩ := (quiet_iff e).mp h
  rw [keyMatch, nibbleAt_zerosWord, BitVec.and_comm]
  split_ifs with odd even
  · simp [high odd]
  · simp [low even]
  · simp

/-- Where no entry matches, no symbol is reported (41_decoder.md R112, R113). -/
theorem symbolAt_lastMatch_of_no_match {es : List KeyEntry} {F : FrameWord} (h : ∀ e ∈ es, keyMatch e F = false) :
    symbolAt es (lastMatch es F).1 (lastMatch es F).2 = none := by
  simp [lastMatch, lastMatchFrom_of_no_match F es 0 (false, 0) h, symbolAt]

/-- Every DigitByte of the `0000` frame is 0x7D. -/
theorem digitByte_zerosWord (i : Fin 4) : digitByte zerosWord i = 0x7D#8 := by
  revert i; decide

/-- The digits of a Reading are its lanes' texts, the sign's mark in lane 0 and the point's in the others (41_decoder.md R109). -/
theorem decodeReading_digits (T : Tables) (f : Frame) : (decodeReading T f).digits =
    laneText 0x2D#8 (decLane T f.word 0) ++ laneText 0x2E#8 (decLane T f.word 1) ++ laneText 0x2E#8 (decLane T f.word 2) ++
      laneText 0x2E#8 (decLane T f.word 3) := rfl

/-- A lane of the DigitByte 0x7D shows `0` without a mark, under any table that maps the pattern to it. -/
theorem laneText_of_zero {T : Tables} {F : FrameWord} {i : Fin 4} (mapped : segEntry T 0x7D#7 = some 0x30#8)
    (digit : digitByte F i = 0x7D#8) (mark : Byte) : laneText mark (decLane T F i) = [0x30#8] := by
  have pattern : digPat 0x7D#8 = 0x7D#7 := by decide
  have noFlag : digFlag 0x7D#8 = false := by decide
  simp [laneText_eq, decLane, digit, pattern, noFlag, romSeg, mapped]

/-- A frame whose DigitBytes are all 0x7D shows the digits `0000`. -/
theorem digits_of_zeros {T : Tables} (f : Frame) (mapped : segEntry T 0x7D#7 = some 0x30#8)
    (digits : ∀ i, digitByte f.word i = 0x7D#8) : (decodeReading T f).digits = [0x30#8, 0x30#8, 0x30#8, 0x30#8] := by
  simp [decodeReading_digits, laneText_of_zero mapped (digits _)]

/-- A frame that no key matches has no prefix, no unit and no option. -/
theorem decodeReading_of_no_match {T : Tables} (f : Frame) (distinct : (T.opt.toList.map KeyEntry.sym).Nodup)
    (h : ∀ e ∈ T.pfx ++ T.unit ++ T.opt.toList, keyMatch e f.word = false) :
    decodeReading T f = ⟨f.ts, (decodeReading T f).digits, none, none, []⟩ := by
  have noPrefix : (decodeReading T f).unitPrefix = none := symbolAt_lastMatch_of_no_match fun e mem => h e (by simp [mem])
  have noUnit : (decodeReading T f).unit = none := symbolAt_lastMatch_of_no_match fun e mem => h e (by simp [mem])
  have noOptions : (decodeReading T f).options = [] := by
    have noneLeft : (T.opt.toList.filter fun e => keyMatch e f.word) = [] :=
      List.filter_eq_nil_iff.mpr fun e mem => by simp [h e (List.mem_append_right _ mem)]
    rw [options_of_distinct T f distinct, noneLeft, List.map_nil]
  calc decodeReading T f
      = ⟨f.ts, (decodeReading T f).digits, (decodeReading T f).unitPrefix, (decodeReading T f).unit,
          (decodeReading T f).options⟩ := rfl
    _ = ⟨f.ts, (decodeReading T f).digits, none, none, []⟩ := by rw [noPrefix, noUnit, noOptions]

/-- Settles O40: the quiet masks share no bit with the `0000` frame, so nothing matches, and each lane looks up R54's entry. -/
theorem zerosFrameReadsAsZeros : Obligations.ZerosFrameReadsAsZeros := by
  unfold Obligations.ZerosFrameReadsAsZeros
  intro T admissible
  have quiet := quiet_of_admissible admissible
  have noMatch : ∀ e ∈ T.pfx ++ T.unit ++ T.opt.toList, keyMatch e zerosWord = false := fun e mem =>
    keyMatch_zerosWord_of_quiet (quiet e mem)
  refine ⟨fun e mem => ⟨fun hit => ?_, (quiet_iff e).mp (quiet e mem)⟩, fun ts => ?_⟩
  · simpa [noMatch e mem] using (keyMatch_iff e zerosWord).mpr hit
  · rw [decodeReading_of_no_match ⟨zerosWord, ts⟩ (optNames_nodup_of_admissible admissible) noMatch,
      digits_of_zeros ⟨zerosWord, ts⟩ (segEntry_zero_of_admissible admissible) digitByte_zerosWord]

/-! ### The nibbles of a byte -/

/-- The data nibble of a byte is the nibble it was built with (20_memory.md R46). -/
@[simp] theorem byteDat_mkByte (idx dat : Nibble) : byteDat (mkByte idx dat) = dat := BitVec.extractLsb'_append_eq_right

/-- Settles O8: the two fields by arithmetic, and both read back. -/
theorem byteSplitsIntoNibbles : Obligations.ByteSplitsIntoNibbles := by
  unfold Obligations.ByteSplitsIntoNibbles
  intro b idx dat
  have high : (byteIdx b).toNat = b.toNat / 16 := by
    rw [byteIdx, BitVec.extractLsb'_toNat, Nat.shiftRight_eq_div_pow]
    exact Nat.mod_eq_of_lt (by omega)
  have low : (byteDat b).toNat = b.toNat % 16 := by simp [byteDat]
  exact ⟨high, low, byteIdx_mkByte idx dat, byteDat_mkByte idx dat⟩

end Sys2Proof.Proofs
end

section
/-! PROOFS. The input word (30_encoding.md): its event bits and the priority decode (R66, R67), the byte classes (R69), the byte layout
of the host's words, and the operation map (R80). -/

namespace Sys2Proof.Proofs

open Sys2Proof Sys2Proof.Machine Sys2Proof.Claims

/-! ### The byte word and its class -/

/-- The encoder gives a byte class the byte word of its two nibbles (30_encoding.md R69, R80). -/
@[simp] theorem encode_byteInstr (idx dat : Nibble) : encode (byteInstr idx dat) = .input (byteWord idx dat) := by
  obtain ⟨⟨n, hn⟩⟩ := idx
  have range : n < 16 := hn
  interval_cases n <;> rfl

/-- A byte class carries its two nibbles (30_encoding.md R69). -/
@[simp] theorem carried_byteInstr (idx dat : Nibble) : carried (byteInstr idx dat) = some (idx, dat) := by
  obtain ⟨⟨n, hn⟩⟩ := idx
  have range : n < 16 := hn
  interval_cases n <;> rfl

@[simp] theorem inputIdx_byteWord (idx dat : Nibble) : inputIdx (byteWord idx dat) = idx := by
  rw [inputIdx, byteWord, BitVec.extractLsb'_append_eq_of_le (Nat.le_refl 4)]
  exact BitVec.extractLsb'_append_eq_right

@[simp] theorem inputDat_byteWord (idx dat : Nibble) : inputDat (byteWord idx dat) = dat := BitVec.extractLsb'_append_eq_right

/-! ### The event bits and the priority decode -/

/-- The four event bits of an input word, `IW[11:8]`: rst, err, eos, vld (30_encoding.md R66). -/
def eventBits (w : InputWord) : Nibble := w.extractLsb' 8 4

@[simp] theorem eventBits_byteWord (idx dat : Nibble) : eventBits (byteWord idx dat) = 0x1#4 := by
  rw [eventBits, byteWord, BitVec.extractLsb'_append_eq_of_le (by decide)]
  exact BitVec.extractLsb'_append_eq_left

/-- A word with `vld` alone among its event bits is the byte word of its two nibbles (30_encoding.md R66). -/
theorem byteWord_of_vld {w : InputWord} (vld : eventBits w = 0x1#4) : byteWord (inputIdx w) (inputDat w) = w := by
  rw [byteWord, ← vld, eventBits, inputIdx, inputDat, BitVec.extractLsb'_append_extractLsb'_eq_extractLsb' (by decide),
    BitVec.extractLsb'_append_extractLsb'_eq_extractLsb' (by decide)]
  exact BitVec.extractLsb'_eq_self

/-- The priority decode looks at the event bits, and at the two nibbles of a BYTE (30_encoding.md R67). -/
theorem decodeInput_eq_ite (w : InputWord) : decodeInput w =
    if (eventBits w).getLsbD 3 then .rst else if (eventBits w).getLsbD 2 then .ioerr else if (eventBits w).getLsbD 1 then .eos
    else if (eventBits w).getLsbD 0 then byteInstr (inputIdx w) (inputDat w) else .idle := by
  simp [decodeInput, eventBits]

/-- A byte word decodes to the class of its index nibble, with its data nibble (30_encoding.md R67, R69). -/
@[simp] theorem decodeInput_byteWord (idx dat : Nibble) : decodeInput (byteWord idx dat) = byteInstr idx dat := by
  rw [decodeInput_eq_ite, eventBits_byteWord, inputIdx_byteWord, inputDat_byteWord]
  rfl

/-- The five outcomes of the priority decode (30_encoding.md R67), each with its event bits as the operation map masks them (R80). -/
theorem decodeInput_cases (w : InputWord) :
    (eventBits w &&& 0x8#4 = 0x8#4 ∧ decodeInput w = .rst) ∨
    (eventBits w &&& 0xC#4 = 0x4#4 ∧ decodeInput w = .ioerr) ∨
    (eventBits w &&& 0xE#4 = 0x2#4 ∧ decodeInput w = .eos) ∨
    (eventBits w = 0x1#4 ∧ decodeInput w = byteInstr (inputIdx w) (inputDat w)) ∨
    (eventBits w &&& 0xF#4 = 0x0#4 ∧ decodeInput w = .idle) := by
  have rst : ∀ n : Nibble, n.getLsbD 3 = true → n &&& 0x8#4 = 0x8#4 := by decide
  have err : ∀ n : Nibble, ¬n.getLsbD 3 = true → n.getLsbD 2 = true → n &&& 0xC#4 = 0x4#4 := by decide
  have eos : ∀ n : Nibble, ¬n.getLsbD 3 = true → ¬n.getLsbD 2 = true → n.getLsbD 1 = true → n &&& 0xE#4 = 0x2#4 := by decide
  have vld : ∀ n : Nibble, ¬n.getLsbD 3 = true → ¬n.getLsbD 2 = true → ¬n.getLsbD 1 = true → n.getLsbD 0 = true →
      n = 0x1#4 := by decide
  have idle : ∀ n : Nibble, ¬n.getLsbD 3 = true → ¬n.getLsbD 2 = true → ¬n.getLsbD 1 = true → ¬n.getLsbD 0 = true →
      n &&& 0xF#4 = 0x0#4 := by decide
  rw [decodeInput_eq_ite]
  split_ifs with bit3 bit2 bit1 bit0
  · exact .inl ⟨rst _ bit3, rfl⟩
  · exact .inr (.inl ⟨err _ bit3 bit2, rfl⟩)
  · exact .inr (.inr (.inl ⟨eos _ bit3 bit2 bit1, rfl⟩))
  · exact .inr (.inr (.inr (.inl ⟨vld _ bit3 bit2 bit1 bit0, rfl⟩)))
  · exact .inr (.inr (.inr (.inr ⟨idle _ bit3 bit2 bit1 bit0, rfl⟩)))

/-- In RUN a byte that emits no Frame is the newest in the window (40_synchronizer.md R86, R88). -/
theorem absorbTerminator_newest {b : Byte} {s : State} (run : s.term = .run) (noFrame : (absorbTerminator b s).frame = none) :
    (absorbTerminator b s).window[13] = ⟨s.inTs, b⟩ := by
  obtain ⟨-, -, eq⟩ | ⟨-, -, eq⟩ | ⟨ended, -⟩ := absorbTerminator_cases b s
  · simp [eq] at noFrame
  · rw [eq]; exact pushWindow_newest s.window ⟨s.inTs, b⟩
  · exact absurd run ended

/-- Settles O1: each clause is a branch of the decoder, and the BYTE's operation does what R88 says of its byte. -/
theorem inputWordDecodesByPriority : Obligations.InputWordDecodesByPriority := by
  unfold Obligations.InputWordDecodesByPriority
  intro w
  refine ⟨fun rst => ?_, fun noRst err => ?_, fun noRst noErr eos => ?_, fun noRst noErr noEos vld => ?_,
    fun noRst noErr noEos noVld => ?_⟩
  · simp only [decodeInput, rst, if_true]
  · simp only [decodeInput, noRst, err, if_true, Bool.false_eq_true, if_false]
  · simp only [decodeInput, noRst, noErr, eos, if_true, Bool.false_eq_true, if_false]
  · have event : decodeInput w = byteInstr (inputIdx w) (inputDat w) := by
      simp only [decodeInput, noRst, noErr, noEos, vld, if_true, Bool.false_eq_true, if_false]
    have byte : mkByte (inputIdx w) (inputDat w) = w.extractLsb' 0 8 :=
      BitVec.extractLsb'_append_extractLsb'_eq_extractLsb' (by decide)
    refine ⟨⟨_, _, by rw [event, carried_byteInstr], byte⟩, fun s onPort run => ?_⟩
    rw [fetchEvent, onPort, event, exec_byteInstr, byte]
    exact ⟨_, rfl, absorbTerminator_newest run⟩
  · simp only [decodeInput, noRst, noErr, noEos, noVld, Bool.false_eq_true, if_false]

/-- Settles O2: `decodeInput_byteWord` at each index nibble; every operation goes on. -/
theorem byteClassFixedByIndexNibble : Obligations.ByteClassFixedByIndexNibble := by
  unfold Obligations.ByteClassFixedByIndexNibble
  intro dat
  have decoded := fun idx => decodeInput_byteWord idx dat
  exact ⟨decoded _, decoded _, decoded _, decoded _, decoded _, decoded _, decoded _, decoded _, decoded _, decoded _,
    decoded _, decoded _, decoded _, decoded _, decoded _, decoded _, fun idx s => exec_goesOn _ s⟩

/-! ### Decoding and encoding -/

/-- The word the encoder gives an operation decodes to that operation (30_encoding.md R66, R80). -/
theorem decodeInput_of_encode {i : Instr} {w : InputWord} (h : encode i = .input w) : decodeInput w = i := by
  cases i with
  | idle | eos | ioerr | rst => cases h; decide
  | noise0 dat | fidx1 dat | fidx2 dat | fidx3 dat | fidx4 dat | fidx5 dat | fidx6 dat | fidx7 dat | fidx8 dat | fidx9 dat
  | fidx10 dat | fidx11 dat | fidx12 dat | fidx13 dat | fterm dat | noise15 dat => cases h; exact decodeInput_byteWord _ dat
  | decode F => cases h

/-- The seven bytes of a frame word decode to its DECODE (30_encoding.md R71). -/
theorem decodeBytes_frame (F : FrameWord) : decodeBytes (Encoded.frame F).bytes = .ok (.decode F) := by
  have joined : F.extractLsb' 48 8 ++ F.extractLsb' 40 8 ++ F.extractLsb' 32 8 ++ F.extractLsb' 24 8 ++ F.extractLsb' 16 8
      ++ F.extractLsb' 8 8 ++ F.extractLsb' 0 8 = F := by
    iterate 6 rw [BitVec.extractLsb'_append_extractLsb'_eq_extractLsb' (by decide)]
    exact BitVec.extractLsb'_eq_self
  exact congrArg (fun G => Except.ok (Instr.decode G)) joined

/-- Only DECODE is encoded as a frame word. -/
theorem eq_decode_of_encode {i : Instr} {F : FrameWord} (h : encode i = .frame F) : i = .decode F := by
  cases i <;> cases h
  rfl

/-- Settles O4: an input word's bytes by `decodeBytes_input` and the word by `decodeInput_of_encode`; a frame word's bytes by
`decodeBytes_frame`. -/
theorem decodingAnEncodingGivesItBack : Obligations.DecodingAnEncodingGivesItBack := by
  unfold Obligations.DecodingAnEncodingGivesItBack
  intro i
  rw [encodeBytes]
  cases encoded : encode i with
  | input w => rw [decodeBytes_input, decodeInput_of_encode encoded]
  | frame F => rw [decodeBytes_frame, eq_decode_of_encode encoded]

/-- Bytes of a length that neither format has are refused with their length. -/
theorem decodeBytes_of_length_ne {bs : List Byte} (two : bs.length ≠ 2) (seven : bs.length ≠ 7) :
    decodeBytes bs = .error (.badLength bs.length) := by
  unfold decodeBytes
  split
  · exact absurd rfl two
  · exact absurd rfl seven
  · rfl

/-- Seven bytes are always a frame word (30_encoding.md R79). -/
theorem decodeBytes_of_length_seven {bs : List Byte} (seven : bs.length = 7) : ∃ F, decodeBytes bs = .ok (.decode F) := by
  match bs, seven with
  | [_, _, _, _, _, _, _], _ => exact ⟨_, rfl⟩

/-- Settles O6: the decoder's branches, by the number of bytes and, for two bytes, by the bits beyond the port. -/
theorem decoderRefusesByName : Obligations.DecoderRefusesByName := by
  unfold Obligations.DecoderRefusesByName
  intro bs
  refine ⟨decodeBytes_of_length_ne, ?_, ?_, decodeBytes_of_length_seven⟩
  · rintro b0 b1 rfl beyond
    exact if_neg beyond
  · rintro b0 b1 rfl inside
    exact ⟨_, if_pos inside⟩

/-- Settles O7: the decoder evaluated at nine words. -/
theorem wordsWrittenOutDecode : Obligations.WordsWrittenOutDecode := by
  unfold Obligations.WordsWrittenOutDecode
  decide

/-! ### The operation map -/

/-- Two rows of the map that agree on the bits both of them read are one row (30_encoding.md R80). -/
theorem operationMap_separates :
    ∀ r ∈ operationMap, ∀ r' ∈ operationMap, r.2.1 &&& r'.2.2 = r'.2.1 &&& r.2.2 → r = r' := by decide

/-- No two rows of the map have the same mnemonic. -/
theorem operationMap_mnemonics_nodup : (operationMap.map Prod.fst).Nodup := by decide

/-- The map's own law for each operation: the word the encoder gives lies in the operation's row (30_encoding.md R80). -/
theorem inOwnRow_encode : ∀ i : Instr, Laws.RowMatch.Statement i
  | .idle => Laws.RowMatch.idle | .eos => Laws.RowMatch.eos | .ioerr => Laws.RowMatch.ioerr | .rst => Laws.RowMatch.rst
  | .noise0 d => Laws.RowMatch.noise0 d | .fidx1 d => Laws.RowMatch.fidx1 d | .fidx2 d => Laws.RowMatch.fidx2 d
  | .fidx3 d => Laws.RowMatch.fidx3 d | .fidx4 d => Laws.RowMatch.fidx4 d | .fidx5 d => Laws.RowMatch.fidx5 d
  | .fidx6 d => Laws.RowMatch.fidx6 d | .fidx7 d => Laws.RowMatch.fidx7 d | .fidx8 d => Laws.RowMatch.fidx8 d
  | .fidx9 d => Laws.RowMatch.fidx9 d | .fidx10 d => Laws.RowMatch.fidx10 d | .fidx11 d => Laws.RowMatch.fidx11 d
  | .fidx12 d => Laws.RowMatch.fidx12 d | .fidx13 d => Laws.RowMatch.fidx13 d
  | .fterm d => Laws.RowMatch.fterm d | .noise15 d => Laws.RowMatch.noise15 d | .decode F => Laws.RowMatch.decode F

/-- The row that an encoded input word lies in. -/
theorem exists_row_of_encode {i : Instr} {w : InputWord} (h : encode i = .input w) :
    ∃ r ∈ operationMap, w &&& r.2.2 = r.2.1 ∧ r.1 = i.mnemonic := by
  have own : Laws.RowMatch.inOwnRow i = true := inOwnRow_encode i
  rw [Laws.RowMatch.inOwnRow, h] at own
  obtain ⟨r, mem, meets⟩ := List.any_eq_true.mp own
  simp only [Bool.and_eq_true, beq_iff_eq] at meets
  exact ⟨r, mem, meets.2, meets.1⟩

/-- A mask over the event bits alone looks at nothing else in the word. -/
theorem and_eventMask (w : InputWord) (M : Nibble) : w &&& (M ++ 0#8) = (eventBits w &&& M) ++ 0#8 := by
  have parts : eventBits w ++ w.extractLsb' 0 8 = w := BitVec.extractLsb'_append_extractLsb'
  calc w &&& (M ++ 0#8) = (eventBits w ++ w.extractLsb' 0 8) &&& (M ++ 0#8) := by rw [parts]
    _ = (eventBits w &&& M) ++ 0#8 := by rw [BitVec.and_append, BitVec.and_zero]

/-- Every input word meets the row of its operation (30_encoding.md R80). -/
theorem exists_row (w : InputWord) : ∃ r ∈ operationMap, w &&& r.2.2 = r.2.1 ∧ r.1 = (decodeInput w).mnemonic := by
  obtain ⟨bits, event⟩ | ⟨bits, event⟩ | ⟨bits, event⟩ | ⟨bits, event⟩ | ⟨bits, event⟩ := decodeInput_cases w <;> rw [event]
  · exact ⟨("RST", 0x8#4 ++ 0#8, 0x8#4 ++ 0#8), by decide, by rw [and_eventMask, bits], rfl⟩
  · exact ⟨("IOERR", 0x4#4 ++ 0#8, 0xC#4 ++ 0#8), by decide, by rw [and_eventMask, bits], rfl⟩
  · exact ⟨("EOS", 0x2#4 ++ 0#8, 0xE#4 ++ 0#8), by decide, by rw [and_eventMask, bits], rfl⟩
  · refine exists_row_of_encode ?_
    rw [encode_byteInstr, byteWord_of_vld bits]
  · exact ⟨("IDLE", 0x0#4 ++ 0#8, 0xF#4 ++ 0#8), by decide, by rw [and_eventMask, bits], rfl⟩

/-- A row applies to a word exactly when it is the row of the word's operation (30_encoding.md R80). -/
theorem row_applies_iff {w : InputWord} {r : String × InputWord × InputWord} (mem : r ∈ operationMap) :
    w &&& r.2.2 = r.2.1 ↔ r.1 = (decodeInput w).mnemonic := by
  obtain ⟨own, ownMem, ownApplies, ownName⟩ := exists_row w
  constructor
  · intro applies
    have shared : r.2.1 &&& own.2.2 = own.2.1 &&& r.2.2 := by
      rw [← applies, ← ownApplies, BitVec.and_assoc, BitVec.and_assoc, BitVec.and_comm r.2.2]
    rw [operationMap_separates r mem own ownMem shared, ownName]
  · intro name
    have same : r = own := List.inj_on_of_nodup_map operationMap_mnemonics_nodup mem ownMem (name.trans ownName.symm)
    rw [same, ownApplies]

/-- Settles O3: the rows that apply are those of the operation's mnemonic, which stands in the map once. -/
theorem oneMapRowForEachInputWord : Obligations.OneMapRowForEachInputWord := by
  unfold Obligations.OneMapRowForEachInputWord
  intro w
  obtain ⟨own, ownMem, -, ownName⟩ := exists_row w
  have listed : (decodeInput w).mnemonic ∈ operationMap.map Prod.fst := ownName ▸ List.mem_map_of_mem ownMem
  calc (operationMap.filter fun r => w &&& r.2.2 == r.2.1).map Prod.fst
      = (operationMap.filter fun r => r.1 == (decodeInput w).mnemonic).map Prod.fst :=
        congrArg (List.map Prod.fst) <| List.filter_congr fun r mem =>
          Bool.eq_iff_iff.mpr (by simpa using row_applies_iff mem)
    _ = (operationMap.map Prod.fst).filter (· == (decodeInput w).mnemonic) := by rw [List.filter_map]; rfl
    _ = [(decodeInput w).mnemonic] := by
        rw [List.filter_beq, List.count_eq_one_of_mem operationMap_mnemonics_nodup listed, List.replicate_one]

/-- What an input word decodes to is encoded as an input word: it is never DECODE (30_encoding.md R83). -/
theorem encode_decodeInput (w : InputWord) : ∃ w', encode (decodeInput w) = .input w' := by
  obtain ⟨-, event⟩ | ⟨-, event⟩ | ⟨-, event⟩ | ⟨-, event⟩ | ⟨-, event⟩ := decodeInput_cases w <;> rw [event]
  · exact ⟨_, rfl⟩
  · exact ⟨_, rfl⟩
  · exact ⟨_, rfl⟩
  · exact ⟨_, encode_byteInstr _ _⟩
  · exact ⟨_, rfl⟩

/-- Settles O5: a byte word by its two nibbles, and any other word by its row, which is that of the operation alone. -/
theorem encodingADecodedWordKeepsIt : Obligations.EncodingADecodedWordKeepsIt := by
  unfold Obligations.EncodingADecodedWordKeepsIt
  refine ⟨fun w top => ?_, fun w => ?_, fun F => rfl⟩
  · have vld : eventBits w = 0x1#4 := top
    rw [← byteWord_of_vld vld, decodeInput_byteWord, encode_byteInstr]
  · obtain ⟨w', encoded⟩ := encode_decodeInput w
    have same : decodeInput w' = decodeInput w := decodeInput_of_encode encoded
    exact ⟨w', encoded, same, fun r mem applies => by
      rwa [row_applies_iff mem, same, ← row_applies_iff mem]⟩

end Sys2Proof.Proofs
end

section
/-! PROOFS. The frame word's nibbles (30_encoding.md R71), the key masks (R75), DEC's output encodings (R76) and the terminal codes
(R77). -/

namespace Sys2Proof.Proofs

open Sys2Proof Sys2Proof.Machine Sys2Proof.Claims

/-! ### The frame word -/

/-- Packing takes one more nibble by concatenation; what passes bit 55 is dropped. -/
theorem packNibbles_snoc (ds : List Nibble) (d : Nibble) :
    packNibbles (ds ++ [d]) = (packNibbles ds ++ d).setWidth 56 := by
  rw [BitVec.setWidth_append_eq_shiftLeft_setWidth_or, BitVec.setWidth_eq, packNibbles, List.foldl_append]
  rfl

/-- The nibble that stands `m` places before the last of a packed list. -/
theorem packNibbles_extractLsb' (ds : List Nibble) (m : Nat) (h : m < ds.length) (fits : m < 14) :
    (packNibbles ds).extractLsb' (4 * m) 4 = ds[ds.length - 1 - m] := by
  induction ds using List.reverseRecOn generalizing m with
  | nil => cases h
  | append_singleton ds d ih =>
    rw [packNibbles_snoc, BitVec.extractLsb'_setWidth_of_le (by omega)]
    cases m with
    | zero => simpa using BitVec.extractLsb'_append_eq_right
    | succ m =>
      have inner : m < ds.length := by simpa using h
      rw [BitVec.extractLsb'_append_eq_of_le (by omega), show 4 * (m + 1) - 4 = 4 * m by omega, ih m inner (by omega),
        List.getElem_append_left (by simp; omega)]
      simp [Nat.sub_sub, Nat.add_comm]

/-- SYNC's packing of a window is shift and or, slot by slot (30_encoding.md R71, 40_synchronizer.md R91). -/
theorem packFrame_eq (W : Vector Slot 14) : packFrame W = packNibbles (W.toList.map fun x => byteDat x.b) := by
  have slots : W.toList = [W[0], W[1], W[2], W[3], W[4], W[5], W[6], W[7], W[8], W[9], W[10], W[11], W[12], W[13]] := by
    refine List.ext_getElem (by simp) fun k h1 h2 => ?_
    have hk : k < 14 := by simpa using h1
    interval_cases k <;> rfl
  calc packFrame W = (packFrame W).setWidth 56 := (BitVec.setWidth_eq _).symm
    _ = packNibbles (W.toList.map fun x => byteDat x.b) := by
      simp only [packFrame, BitVec.setWidth_append_eq_shiftLeft_setWidth_or, slots, packNibbles, List.map, List.foldl,
        BitVec.zero_shiftLeft, BitVec.zero_or]

/-- Nibble `k` of a packed window is the data nibble of slot `k` (30_encoding.md R71). -/
theorem nibbleAt_packFrame (W : Vector Slot 14) (k : Fin 14) : nibbleAt (packFrame W) k = byteDat W[k].b := by
  have start : 52 - 4 * k.val = 4 * (13 - k.val) := by omega
  rw [nibbleAt, packFrame_eq, start, packNibbles_extractLsb' _ _ (by simp; omega) (by omega)]
  have back : 14 - 1 - (13 - k.val) = k.val := by omega
  simp [back]

/-- Settles O9: DEC's reading bit by bit, and SYNC's packing nibble by nibble. -/
theorem frameWordHoldsNibblesInOrder : Obligations.FrameWordHoldsNibblesInOrder := by
  unfold Obligations.FrameWordHoldsNibblesInOrder
  refine ⟨fun F k j hj => ?_, nibbleAt_packFrame, packFrame_eq⟩
  rw [nibbleAt, BitVec.getLsbD_extractLsb', decide_eq_true hj, Bool.true_and]

/-! ### The terminal codes -/

/-- Settles O28: the three codes, of which a state has one. -/
theorem terminalCodes : Obligations.TerminalCodes := by
  unfold Obligations.TerminalCodes
  refine ⟨rfl, rfl, rfl, fun s => ?_⟩
  rw [State.termCode]
  cases s.term <;> decide

/-! ### The key masks and DEC's output port -/

/-- Settles O34: a conjunction of nibbles that is not 0 has a bit set, and `keyMatch_of_bit` is the other direction. -/
theorem keyMatchesOnAnySharedBit : Obligations.KeyMatchesOnAnySharedBit := by
  unfold Obligations.KeyMatchesOnAnySharedBit
  intro e F
  refine ⟨⟨fun hit => ?_, fun ⟨b, _, data, mask⟩ => keyMatch_of_bit b data mask⟩, fun zero => by simp [keyMatch, zero]⟩
  by_contra none
  push Not at none
  refine (keyMatch_iff e F).mp hit (BitVec.eq_of_getLsbD_eq fun b hb => ?_)
  rw [BitVec.getLsbD_and, BitVec.getLsbD_zero]
  cases data : (nibbleAt F e.off).getLsbD b with
  | false => rfl
  | true => simpa using none b hb data

/-- The scan's last entry is taken if it matches; otherwise the scan of those before it stands (41_decoder.md R112). -/
theorem lastMatch_snoc (es : List KeyEntry) (e : KeyEntry) (F : FrameWord) :
    lastMatch (es ++ [e]) F = if keyMatch e F then (true, es.length) else lastMatch es F := by
  rw [lastMatch, lastMatchFrom_append, Nat.zero_add]
  rfl

/-- The scan is valid exactly when some entry matches (41_decoder.md R112). -/
theorem lastMatch_valid_iff (es : List KeyEntry) (F : FrameWord) :
    (lastMatch es F).1 = true ↔ ∃ e ∈ es, KeyHit e F := by
  induction es using List.reverseRecOn with
  | nil => simp [lastMatch]
  | append_singleton es e ih =>
    rw [lastMatch_snoc]
    split
    case isTrue hit => exact iff_of_true rfl ⟨e, by simp, (keyMatch_iff e F).mp hit⟩
    case isFalse miss =>
      have noHit : ¬KeyHit e F := fun hit => miss ((keyMatch_iff e F).mpr hit)
      simp [ih, noHit, or_and_right, exists_or]

/-- A valid index is a position of the table. -/
theorem lastMatch_idx_lt {es : List KeyEntry} {F : FrameWord} (valid : (lastMatch es F).1 = true) :
    (lastMatch es F).2 < es.length := by
  induction es using List.reverseRecOn with
  | nil => simp [lastMatch] at valid
  | append_singleton es e ih =>
    rw [lastMatch_snoc] at valid ⊢
    split at valid
    case isTrue hit => simp [hit]
    case isFalse miss => simpa [miss] using Nat.lt_succ_of_lt (ih valid)

/-- Without a match the index is 0 (41_decoder.md R112). -/
theorem lastMatch_idx_of_invalid {es : List KeyEntry} {F : FrameWord} (invalid : (lastMatch es F).1 = false) :
    (lastMatch es F).2 = 0 := by
  have noMatch : ∀ e ∈ es, keyMatch e F = false := fun e mem => by
    by_contra hit
    have valid := (lastMatch_valid_iff es F).mpr ⟨e, mem, (keyMatch_iff e F).mp (by simpa using hit)⟩
    simp [invalid] at valid
  rw [lastMatch, lastMatchFrom_of_no_match F es 0 (false, 0) noMatch]

/-- The index fits its wires (30_encoding.md R76). -/
theorem lastMatch_idx_fits (es : List KeyEntry) (F : FrameWord) :
    (lastMatch es F).2 < 2 ^ Config.indexWidth es.length := by
  cases valid : (lastMatch es F).1 with
  | false => rw [lastMatch_idx_of_invalid valid]; positivity
  | true =>
    calc (lastMatch es F).2 < es.length := lastMatch_idx_lt valid
      _ ≤ 2 ^ Nat.clog 2 es.length := Nat.le_pow_clog (by decide) es.length
      _ ≤ 2 ^ Config.indexWidth es.length := Nat.pow_le_pow_right (by decide) (Nat.le_max_right 1 _)

/-- Settles O37: the scan's rules for each of the two tables, and the option bits by `optionBits_getLsbD`. -/
theorem readingPortEncoding : Obligations.ReadingPortEncoding := by
  unfold Obligations.ReadingPortEncoding
  intro T F ts v
  refine ⟨lastMatch_valid_iff T.pfx F, lastMatch_valid_iff T.unit F, lastMatch_idx_fits T.pfx F, lastMatch_idx_fits T.unit F,
    lastMatch_idx_of_invalid, lastMatch_idx_of_invalid, fun j => ?_⟩
  have bit : (decPort T F ts v).optVec.getLsbD j.val = keyMatch T.opt[j] F := optionBits_getLsbD T F j.val j.isLt
  rw [bit]
  exact keyMatch_iff T.opt[j] F

end Sys2Proof.Proofs
end

section
/-! PROOFS. The lines of a program (30_encoding.md R81, R82): the beats they stand for, and the run over a FRAME line
(40_synchronizer.md R103). -/

namespace Sys2Proof.Proofs

open Sys2Proof Sys2Proof.Machine

/-! ### The beats of a program -/

/-- The beats of one list of events after another. -/
theorem beatsFrom_append (pos : Nat) (es fs : List StreamEvent) :
    beatsFrom pos (es ++ fs) = beatsFrom pos es ++ beatsFrom (pos + es.length) fs := by
  induction es generalizing pos with
  | nil => simp [beatsFrom]
  | cons e es ih => simp [beatsFrom, ih, Nat.add_assoc, Nat.add_comm 1]

/-- Each event is one beat (30_encoding.md R81). -/
@[simp] theorem beatsFrom_length (pos : Nat) (es : List StreamEvent) : (beatsFrom pos es).length = es.length := by
  induction es generalizing pos with
  | nil => rfl
  | cons e es ih => simp [beatsFrom, ih]

/-- The beat of an event is the event's at its own position. -/
theorem beatsFrom_getElem (pos : Nat) (es : List StreamEvent) (k : Nat) (h : k < (beatsFrom pos es).length) :
    (beatsFrom pos es)[k] = (es[k]'(by simpa using h)).beatAt (pos + k) := by
  induction es generalizing pos k with
  | nil => cases h
  | cons e es ih =>
    cases k with
    | zero => rfl
    | succ k => simpa [beatsFrom, Nat.add_assoc, Nat.add_comm 1] using ih (pos + 1) k (by simpa [beatsFrom] using h)

/-- An event line adds its beat, at the position that is the number of beats before it (30_encoding.md R81). -/
theorem assemble_event (pre : List StreamLine) (e : StreamEvent) :
    assemble (pre ++ [.event e]) = assemble pre ++ [e.beatAt (assemble pre).length] := by
  simp [assemble, beatsFrom_append, beatsFrom, StreamLine.expand]

/-- Lines that expand to the same events add the same beats to a program (30_encoding.md R82). -/
theorem assemble_congr (pre : List StreamLine) {ls ms : List StreamLine}
    (same : ls.flatMap StreamLine.expand = ms.flatMap StreamLine.expand) : assemble (pre ++ ls) = assemble (pre ++ ms) := by
  rw [assemble, assemble, List.flatMap_append, List.flatMap_append, same]

/-- Event lines expand to their events. -/
theorem flatMap_expand_events (es : List StreamEvent) : (es.map StreamLine.event).flatMap StreamLine.expand = es := by
  induction es with
  | nil => rfl
  | cons e es ih => simp [StreamLine.expand, ih]

/-- A byte event's word is `vld` beside the byte (30_encoding.md R66). -/
theorem append_eq_or (b : Byte) : 0x1#4 ++ b = 0x100#12 ||| b.setWidth 12 := by
  rw [← BitVec.setWidth_eq (0x1#4 ++ b), BitVec.setWidth_append_eq_shiftLeft_setWidth_or]
  rfl

/-- A byte is its index nibble times 16 beside its data nibble (20_memory.md R46). -/
theorem mkByte_eq_or (k : Nat) (dat : Nibble) :
    mkByte (BitVec.ofNat 4 k) dat = BitVec.ofNat 8 (16 * k) ||| dat.setWidth 8 := by
  rw [mkByte, ← BitVec.setWidth_eq (BitVec.ofNat 4 k ++ dat), BitVec.setWidth_append_eq_shiftLeft_setWidth_or]
  have shifted : (BitVec.ofNat 4 k).setWidth 8 <<< 4 = BitVec.ofNat 8 (16 * k) :=
    BitVec.eq_of_toNat_eq (by simp [Nat.shiftLeft_eq]; omega)
  rw [shifted]

/-- Settles O10: `assemble_event` for the lines that are one event, and `assemble_congr` for FILL and FRAME. -/
theorem streamLinesStandForTheirWords : Obligations.StreamLinesStandForTheirWords := by
  unfold Obligations.StreamLinesStandForTheirWords
  intro pre
  refine ⟨fun b => ?_, fun b t => ?_, ?_, ?_, ?_, ?_, fun b k => ?_, fun ns ts => ?_⟩
  · rw [assemble_event, ← append_eq_or]; rfl
  · rw [assemble_event, ← append_eq_or]; rfl
  · rw [assemble_event, List.map_append]; rfl
  · rw [assemble_event, List.map_append]; rfl
  · rw [assemble_event, List.map_append]; rfl
  · rw [assemble_event, List.map_append]; rfl
  · refine assemble_congr pre ?_
    rw [← List.map_replicate, flatMap_expand_events]
    simp [StreamLine.expand]
  · refine assemble_congr pre ?_
    have lines : ((List.finRange 14).map fun k => StreamLine.event (.byte
        (BitVec.ofNat 8 (16 * (k.val + 1)) ||| ns[k].setWidth 8) (ts.map fun t => t + k.val)))
        = (StreamLine.frame ns ts).expand.map StreamLine.event := by
      simp [StreamLine.expand, mkByte_eq_or]
    rw [lines, flatMap_expand_events, List.flatMap_singleton]

/-! ### A byte on the port -/

/-- The beat of a byte with its timestamp, as a `B` line gives it (30_encoding.md R66, R81). -/
def byteBeat (x : Slot) : InputBeat := ⟨0x1#4 ++ x.b, x.ts⟩

/-- A byte is built from its two nibbles (20_memory.md R46). -/
@[simp] theorem mkByte_byteIdx_byteDat (b : Byte) : mkByte (byteIdx b) (byteDat b) = b := by
  rw [mkByte, byteIdx, byteDat, BitVec.extractLsb'_append_extractLsb'_eq_extractLsb' (by decide)]
  exact BitVec.extractLsb'_eq_self

/-- The event of a byte's beat is the byte's class (30_encoding.md R67, R69). -/
theorem fetchEvent_byteBeat (s : State) (x : Slot) :
    fetchEvent (s.present (byteBeat x)) = byteInstr (byteIdx x.b) (byteDat x.b) := by
  have joined : 0x1#4 ++ mkByte (byteIdx x.b) (byteDat x.b) = byteWord (byteIdx x.b) (byteDat x.b) :=
    (BitVec.append_assoc (x₁ := 0x1#4) (x₂ := byteIdx x.b) (x₃ := byteDat x.b)).symm
  rw [fetchEvent, present_inWord, byteBeat, ← decodeInput_byteWord, ← joined, mkByte_byteIdx_byteDat]

/-- A step on a byte is what R88 says of it, with DEC driven with the frame register it leaves. -/
theorem step_byteBeat {s s1 : State} {x : Slot} (effect : absorbTerminator x.b (s.present (byteBeat x)) = s1) :
    step (s.present (byteBeat x)) = .next (advanceInput (driveDec s1.frameD s1)) := by
  refine step_of_exec ?_
  rw [fetchEvent_byteBeat, exec_byteInstr, mkByte_byteIdx_byteDat, effect]

/-- In RUN a byte that is no terminator is pushed (40_synchronizer.md R85 to R87, R89). -/
theorem step_byteBeat_of_ne {s : State} {x : Slot} (run : s.term = .run) (noTerminator : byteIdx x.b ≠ 0xE#4) :
    ∃ t, step (s.present (byteBeat x)) = .next t ∧ t.term = .run ∧ t.tables = s.tables ∧ t.cnt = bumpCount s.cnt ∧
      t.window = pushWindow s.window x := by
  have noMatch : ¬Matches (pushedWindow x.b (s.present (byteBeat x))) (bumpCount s.cnt) := fun m => noTerminator m.2.1
  refine ⟨_, step_byteBeat (absorbTerminator_noMatch x.b (s.present (byteBeat x)) run noMatch), ?_⟩
  simp [run, pushedWindow, byteBeat]

/-- In RUN a byte that completes a frame shows the Frame and its Reading (40_synchronizer.md R88, R91). -/
theorem step_byteBeat_of_match {s : State} {x : Slot} (run : s.term = .run)
    (complete : Matches (pushWindow s.window x) (bumpCount s.cnt)) :
    ∃ t, step (s.present (byteBeat x)) = .next t ∧
      t.frame = some ⟨packFrame (pushWindow s.window x), (pushWindow s.window x)[0].ts⟩ ∧
      t.reading = t.frame.map (decodeReading s.tables) := by
  refine ⟨_, step_byteBeat (absorbTerminator_match x.b (s.present (byteBeat x)) run complete), ?_, ?_⟩
  · simp [State.frame, pushedWindow, byteBeat]
  · rw [reading_of_port (by simp)]
    simp

/-! ### The FRAME line -/

/-- Over bytes that are no terminators the machine stays in RUN, counts them up to 14, and holds the newest 14. -/
theorem run_byteBeats {xs : List Slot} {s : State} (run : s.term = .run) (noTerminator : ∀ x ∈ xs, byteIdx x.b ≠ 0xE#4) :
    ∃ os t, Run s (xs.map byteBeat) os t ∧ t.term = .run ∧ t.tables = s.tables ∧
      min (s.cnt.toNat + xs.length) 14 ≤ t.cnt.toNat ∧ t.window.toList = (s.window.toList ++ xs).drop xs.length := by
  induction xs generalizing s with
  | nil => exact ⟨[], s, .done s, run, rfl, by simp, by simp⟩
  | cons x xs ih =>
    obtain ⟨s1, first, run1, tables1, cnt1, window1⟩ := step_byteBeat_of_ne run (noTerminator x (by simp))
    obtain ⟨os, t, rest, runT, tablesT, cntT, windowT⟩ := ih run1 fun y mem => noTerminator y (by simp [mem])
    refine ⟨_, t, .beat first rest, runT, tablesT.trans tables1, ?_, ?_⟩
    · rw [cnt1, bumpCount_toNat] at cntT
      simp only [List.length_cons]
      omega
    · have slid : (s.window.toList ++ x :: xs).drop 1 = s.window.toList.drop 1 ++ [x] ++ xs := by
        rw [List.drop_append_of_le_length (by simp), List.append_assoc]
        rfl
      rw [windowT, window1, pushWindow_toList, ← slid, List.drop_drop, List.length_cons, Nat.add_comm]

/-- A window is its 13 older slots and the newest. -/
theorem toList_eq_take_append (V : Vector Slot 14) : V.toList = V.toList.take 13 ++ [V[13]] := by
  have whole : V.toList.take 14 = V.toList := List.take_of_length_le (by simp)
  conv_lhs => rw [← whole]
  simpa using (List.take_append_getElem (l := V.toList) (i := 13) (by simp)).symm

/-- Among bytes indexed 1 to 14 in order, those before the last are no terminators. -/
theorem byteIdx_ne_of_inOrder {V : Vector Slot 14} (inOrder : IndexesInOrder V) :
    ∀ x ∈ V.toList.take 13, byteIdx x.b ≠ 0xE#4 := by
  intro x mem terminator
  obtain ⟨k, hk, rfl⟩ := List.mem_take_iff_getElem.mp mem
  have below : k < 13 := by omega
  have index : BitVec.ofNat 4 (k + 1) = 14#4 := (inOrder ⟨k, by omega⟩).symm.trans terminator
  have last : (k + 1) % 16 = 14 := congrArg BitVec.toNat index
  omega

/-- 14 bytes pushed one after another are the whole window. -/
theorem pushWindow_last {W U : Vector Slot 14} (V : Vector Slot 14)
    (pushed : U.toList = (W.toList ++ V.toList.take 13).drop 13) : pushWindow U V[13] = V := by
  have gone : (W.toList ++ V.toList.take 13).drop 14 = V.toList.take 13 := List.drop_left' (by simp)
  refine Vector.toList_inj.mp ?_
  calc (pushWindow U V[13]).toList
      = (W.toList ++ V.toList.take 13).drop 14 ++ [V[13]] := by simp [pushWindow_toList, pushed, List.drop_drop]
    _ = V.toList := by rw [gone, ← toList_eq_take_append]

/-- 14 bytes indexed 1 to 14 in order emit their Frame and its Reading from every state in RUN (40_synchronizer.md R103). -/
theorem run_indexedBytes {s : State} {V : Vector Slot 14} (run : s.term = .run) (inOrder : IndexesInOrder V) :
    ∃ os t, Run s (V.toList.map byteBeat) os t ∧ t.frame = some ⟨packFrame V, V[0].ts⟩ ∧
      t.reading = t.frame.map (decodeReading s.tables) := by
  obtain ⟨os, t, first, runT, tablesT, cntT, windowT⟩ := run_byteBeats run (byteIdx_ne_of_inOrder inOrder)
  have older : (V.toList.take 13).length = 13 := by simp
  rw [older] at cntT windowT
  have pushed : pushWindow t.window V[13] = V := pushWindow_last V windowT
  have full : bumpCount t.cnt = 14#4 := (bumpCount_eq_full t.cnt).mpr (by omega)
  have complete : Matches (pushWindow t.window V[13]) (bumpCount t.cnt) := by
    rw [pushed]
    exact ⟨full, inOrder 13, inOrder⟩
  obtain ⟨u, last, frame, reading⟩ := step_byteBeat_of_match runT complete
  rw [pushed] at frame
  rw [tablesT] at reading
  rw [toList_eq_take_append, List.map_append]
  exact ⟨_, u, run_append first (.beat last (.done u)), frame, reading⟩

/-- The bytes of a FRAME line with their timestamps, where the line stands first in its program (30_encoding.md R82). -/
def frameSlots (ns : Vector Nibble 14) (ts : Option Nat) : Vector Slot 14 :=
  Vector.ofFn fun k => ⟨⟨(ts.map (· + k.val)).getD k.val⟩, mkByte (BitVec.ofNat 4 (k.val + 1)) ns[k]⟩

/-- A program of one FRAME line is the beats of its 14 bytes (30_encoding.md R82). -/
theorem assemble_frame (ns : Vector Nibble 14) (ts : Option Nat) :
    assemble [.frame ns ts] = (frameSlots ns ts).toList.map byteBeat := by
  refine List.ext_getElem (by simp [assemble, StreamLine.expand]) fun k h1 h2 => ?_
  simp [assemble, beatsFrom_getElem, StreamLine.expand, frameSlots, byteBeat, StreamEvent.beatAt]

/-- Settles O58: the line's bytes are indexed 1 to 14 in order, and its Frame packs their data nibbles. -/
theorem frameLineIsRecognised : Obligations.FrameLineIsRecognised := by
  unfold Obligations.FrameLineIsRecognised
  intro s ns ts run
  have inOrder : IndexesInOrder (frameSlots ns ts) := fun k => by simp [frameSlots]
  have word : packFrame (frameSlots ns ts) = packNibbles ns.toList := by
    rw [packFrame_eq]
    congr 1
    exact List.ext_getElem (by simp) fun k _ _ => by simp [frameSlots]
  have stamp : (frameSlots ns ts)[0].ts = ⟨ts.getD 0⟩ := by
    cases ts <;> simp [frameSlots]
  obtain ⟨os, t, frameRun, frame, reading⟩ := run_indexedBytes run inOrder
  rw [word, stamp] at frame
  rw [frame] at reading
  exact ⟨os, t, assemble_frame ns ts ▸ frameRun, frame, reading⟩

end Sys2Proof.Proofs
end

section
/-! PROOFS. The live slots of the window as a list, and what a byte does to them (40_synchronizer.md R85 to R92): the window is a ring
buffer of capacity 14, and the spec's other descriptions of the synchronizer (R95, R99, R100) follow it byte by byte. -/

namespace Sys2Proof.Proofs

open Sys2Proof Sys2Proof.Machine Sys2Proof.Claims

/-! ### The last entries of a list -/

section
variable {α : Type}

theorem lastEntries_suffix (n : Nat) (L : List α) : lastEntries n L <:+ L := List.drop_suffix _ _

@[simp] theorem lastEntries_length (n : Nat) (L : List α) : (lastEntries n L).length = min n L.length := by
  rw [lastEntries, List.length_drop]; omega

@[simp] theorem lastEntries_zero (L : List α) : lastEntries 0 L = [] := by simp [lastEntries]

/-- A list with no more than `n` entries is its last `n` entries. -/
theorem lastEntries_of_length_le {n : Nat} {L : List α} (h : L.length ≤ n) : lastEntries n L = L := by
  rw [lastEntries, Nat.sub_eq_zero_of_le h, List.drop_zero]

/-- A list that ends another has the same last entries, as far as it reaches. -/
theorem lastEntries_of_suffix {n : Nat} {K L : List α} (h : K <:+ L) (reach : n ≤ K.length) :
    lastEntries n K = lastEntries n L := by
  obtain ⟨pre, rfl⟩ := h
  rw [lastEntries, lastEntries, List.length_append, Nat.add_sub_assoc reach, List.drop_length_add_append]

/-- Asking for more entries than there are gives them all. -/
theorem lastEntries_min_length (n : Nat) (L : List α) : lastEntries (min n L.length) L = lastEntries n L := by
  unfold lastEntries
  congr 1
  omega

/-- Last entries of last entries, whichever are fewer. -/
theorem lastEntries_lastEntries_min (m n : Nat) (L : List α) :
    lastEntries m (lastEntries n L) = lastEntries (min m n) L := by
  rcases Nat.le_total m n with h | h
  · rw [lastEntries_lastEntries h, Nat.min_eq_left h]
  · rw [lastEntries_of_length_le (by simp; omega), Nat.min_eq_right h]

end

/-! ### Ascending runs of indexes -/

/-- The last `q` pairs of a list have the frame-index nibbles 1 to `q` in order. -/
def AscendingRun (q : Nat) (L : List Slot) : Prop := indexes (lastEntries q L) = indexRun.take q

@[simp] theorem indexes_append (K L : List Slot) : indexes (K ++ L) = indexes K ++ indexes L := List.map_append

@[simp] theorem indexes_length (L : List Slot) : (indexes L).length = L.length := List.length_map _

theorem indexRun_getElem (k : Fin 14) : indexRun[k] = BitVec.ofNat 4 (k.val + 1) := by
  revert k; decide

theorem ascendingRun_zero (L : List Slot) : AscendingRun 0 L := by simp [AscendingRun, indexes]

/-- A run is no longer than the list it ends. -/
theorem AscendingRun.le_length {q : Nat} {L : List Slot} (run : AscendingRun q L) (le : q ≤ 14) : q ≤ L.length := by
  have lengths : min q L.length = min q 14 := by simpa [indexRun] using congrArg List.length run
  omega

/-- A run shows in the last entries that hold it. -/
theorem ascendingRun_lastEntries_iff {q n : Nat} (h : q ≤ n) (L : List Slot) :
    AscendingRun q (lastEntries n L) ↔ AscendingRun q L := by
  rw [AscendingRun, AscendingRun, lastEntries_lastEntries h]

/-- A run of `q + 1` is a run of `q` and then the index `q + 1`. -/
theorem ascendingRun_snoc_iff {q : Nat} (le : q ≤ 13) (L : List Slot) (x : Slot) :
    AscendingRun (q + 1) (L ++ [x]) ↔ AscendingRun q L ∧ (byteIdx x.b).toNat = q + 1 := by
  have next : indexRun.take (q + 1) = indexRun.take q ++ [BitVec.ofNat 4 (q + 1)] := by
    rw [← indexRun_getElem ⟨q, by omega⟩]
    exact List.take_succ_eq_append_getElem (by simp [indexRun]; omega)
  have index : byteIdx x.b = BitVec.ofNat 4 (q + 1) ↔ (byteIdx x.b).toNat = q + 1 := by
    rw [← BitVec.toNat_inj, BitVec.toNat_ofNat, Nat.mod_eq_of_lt (by omega)]
  rw [AscendingRun, AscendingRun, lastEntries_snoc, indexes_append, next, ← index]
  constructor
  · intro same
    obtain ⟨older, newest⟩ := List.append_inj' same rfl
    exact ⟨older, List.singleton_inj.mp newest⟩
  · rintro ⟨older, newest⟩
    rw [older, ← newest]
    rfl

/-- A run on a list with `x` as its newest entry is empty, or as long as the index of `x` says. -/
theorem AscendingRun.eq_zero_or_index {q : Nat} {L : List Slot} {x : Slot} (run : AscendingRun q (L ++ [x])) (le : q ≤ 14) :
    q = 0 ∨ q = (byteIdx x.b).toNat := by
  cases q with
  | zero => exact .inl rfl
  | succ q => exact .inr ((ascendingRun_snoc_iff (by omega) L x).mp run).2.symm

/-- The newest index fixes the length of a run (40_synchronizer.md R100). -/
theorem AscendingRun.eq_of_pos {p q : Nat} {L : List Slot} (runP : AscendingRun p L) (runQ : AscendingRun q L)
    (hp : 0 < p) (hq : 0 < q) (leP : p ≤ 14) (leQ : q ≤ 14) : p = q := by
  rcases L.eq_nil_or_concat with rfl | ⟨K, x, rfl⟩
  · exact absurd (runP.le_length leP) (Nat.not_le_of_lt hp)
  · rw [List.concat_eq_append] at runP runQ
    have := runP.eq_zero_or_index leP
    have := runQ.eq_zero_or_index leQ
    omega

/-- The source's check (40_synchronizer.md R95) asks for a run of 14, since that ends with a terminator. -/
theorem bufferMatches_snoc_iff (L : List Slot) (x : Slot) : BufferMatches (L ++ [x]) x ↔ AscendingRun 14 (L ++ [x]) := by
  refine ⟨fun ⟨_, _, run⟩ => run, fun run => ⟨?_, run.le_length (Nat.le_refl 14), run⟩⟩
  exact BitVec.eq_of_toNat_eq ((ascendingRun_snoc_iff (Nat.le_refl 13) L x).mp run).2

/-! ### The live slots -/

/-- The live slots of the window, the oldest first: its last `cnt` slots (10_state.md R23). -/
def liveSlots (s : State) : List Slot := lastEntries s.cnt.toNat s.window.toList

/-- As many slots are live as are counted, and no more than there are. -/
@[simp] theorem liveSlots_length (s : State) : (liveSlots s).length = min s.cnt.toNat 14 := by
  rw [liveSlots, lastEntries_length, Vector.length_toList]

theorem liveSlots_of_cnt_zero {s : State} (empty : s.cnt = 0#4) : liveSlots s = [] := by
  simp [liveSlots, empty]

/-- The indexes of a window are those of its slots in order (40_synchronizer.md R90). -/
theorem indexesInOrder_iff (W : Vector Slot 14) : IndexesInOrder W ↔ indexes W.toList = indexRun := by
  constructor
  · intro inOrder
    refine List.ext_getElem (by simp [indexRun]) fun k hk _ => ?_
    have below : k < 14 := by simpa using hk
    calc (indexes W.toList)[k] = byteIdx W[k].b := by simp [indexes]
      _ = indexRun[k] := (inOrder ⟨k, below⟩).trans (indexRun_getElem ⟨k, below⟩).symm
  · intro same k
    have slot : byteIdx W[k].b = (indexes W.toList)[k.val]'(by simp) := by simp [indexes]
    rw [slot, ← indexRun_getElem]
    simp only [same]
    rfl

/-- MATCH is a full count and the 14 indexes in order; the terminator's clause is the last of them (40_synchronizer.md R90). -/
theorem matches_iff (W : Vector Slot 14) (c : BitVec 4) : Matches W c ↔ c = 14#4 ∧ indexes W.toList = indexRun := by
  rw [← indexesInOrder_iff]
  exact ⟨fun ⟨full, _, inOrder⟩ => ⟨full, inOrder⟩, fun ⟨full, inOrder⟩ => ⟨full, inOrder 13, inOrder⟩⟩

/-- A pushed window is the newest 13 slots and the new pair (40_synchronizer.md R85). -/
theorem pushWindow_toList_eq (W : Vector Slot 14) (x : Slot) : (pushWindow W x).toList = lastEntries 13 W.toList ++ [x] := by
  simp [pushWindow_toList, lastEntries]

/-- MATCH after a push is a run of 14 on the live slots with the new pair (40_synchronizer.md R90, R104). -/
theorem matches_pushedWindow_iff (b : Byte) (s : State) :
    Matches (pushedWindow b s) (bumpCount s.cnt) ↔ AscendingRun 14 (liveSlots s ++ [⟨s.inTs, b⟩]) := by
  have run : indexes (pushedWindow b s).toList = indexRun ↔ AscendingRun 14 (s.window.toList ++ [⟨s.inTs, b⟩]) := by
    rw [pushedWindow, pushWindow_toList_eq, ← lastEntries_snoc]
    rfl
  rw [matches_iff, bumpCount_eq_full, run, ascendingRun_snoc_iff (Nat.le_refl 13), ascendingRun_snoc_iff (Nat.le_refl 13)]
  constructor
  · rintro ⟨full, older, newest⟩
    exact ⟨(ascendingRun_lastEntries_iff full _).mpr older, newest⟩
  · rintro ⟨older, newest⟩
    have reach : 13 ≤ min s.cnt.toNat 14 := by simpa using older.le_length (by decide)
    have full : 13 ≤ s.cnt.toNat := by omega
    exact ⟨full, (ascendingRun_lastEntries_iff full _).mp older, newest⟩

/-- The pushed pair joins the live slots, and of 15 the oldest is gone (40_synchronizer.md R85). -/
theorem liveSlots_retain (b : Byte) (s : State) : liveSlots (retain b s) = lastEntries 14 (liveSlots s ++ [⟨s.inTs, b⟩]) := by
  have count : min (s.cnt.toNat + 1) 14 = min 13 s.cnt.toNat + 1 := by omega
  rw [liveSlots, retain_cnt, retain_window, bumpCount_toNat, pushedWindow, pushWindow_toList_eq, count, lastEntries_snoc,
    lastEntries_lastEntries (Nat.min_le_left 13 _), lastEntries_snoc, liveSlots, lastEntries_lastEntries_min]

/-- The Frame of a window is that of its slots as a list (40_synchronizer.md R91). -/
theorem frameOf_toList (W : Vector Slot 14) : frameOf W.toList = some ⟨packFrame W, W[0].ts⟩ := by
  have slots : W.toList = W[0] :: W.toList.drop 1 := by
    simpa using List.drop_eq_getElem_cons (l := W.toList) (i := 0) (by simp)
  rw [packFrame_eq, slots]
  rfl

/-- With a run of 14 on the live slots and the new pair, the Frame emitted is that of the newest 14 (40_synchronizer.md R91). -/
theorem frame_recognise {b : Byte} {s : State} (run : AscendingRun 14 (liveSlots s ++ [⟨s.inTs, b⟩])) :
    (recognise b s).frame = frameOf (lastEntries 14 (liveSlots s ++ [⟨s.inTs, b⟩])) := by
  have reach := ((ascendingRun_snoc_iff (Nat.le_refl 13) _ _).mp run).1.le_length (by decide)
  have slots : lastEntries 13 (liveSlots s) = lastEntries 13 s.window.toList :=
    lastEntries_of_suffix (lastEntries_suffix _ _) reach
  rw [lastEntries_snoc, slots, ← pushWindow_toList_eq, frameOf_toList]
  rfl

/-! ### The window is a ring buffer of capacity 14 -/

/-- The check on a ring of capacity 14 or more sees what the whole buffer ends with (40_synchronizer.md R95). -/
theorem bufferMatches_lastEntries_iff {cap : Nat} (h : 14 ≤ cap) (L : List Slot) (x : Slot) :
    BufferMatches (lastEntries cap (L ++ [x])) x ↔ AscendingRun 14 (L ++ [x]) := by
  obtain ⟨cap, rfl⟩ := Nat.exists_eq_add_of_lt (Nat.lt_of_lt_of_le (by decide : 0 < 14) h)
  rw [Nat.zero_add] at h ⊢
  rw [lastEntries_snoc, bufferMatches_snoc_iff, ← lastEntries_snoc, ascendingRun_lastEntries_iff h]

/-- A ring on a byte that completes a run of 14. -/
theorem ringOnByte_match {cap : Nat} (h : 14 ≤ cap) {L : List Slot} {x : Slot} (run : AscendingRun 14 (L ++ [x])) :
    ringOnByte cap L x = ([], frameOf (lastEntries 14 (L ++ [x]))) :=
  if_pos ((bufferMatches_lastEntries_iff h L x).mpr run)

/-- A ring on a byte that does not. -/
theorem ringOnByte_noMatch {cap : Nat} (h : 14 ≤ cap) {L : List Slot} {x : Slot} (noRun : ¬AscendingRun 14 (L ++ [x])) :
    ringOnByte cap L x = (lastEntries cap (L ++ [x]), none) :=
  if_neg (mt (bufferMatches_lastEntries_iff h L x).mp noRun)

/-- In RUN a byte does to the live slots what it does to a ring of capacity 14, and emits the same Frame (40_synchronizer.md R88). -/
theorem ringOnByte_liveSlots (b : Byte) {s : State} (run : s.term = .run) :
    ringOnByte 14 (liveSlots s) ⟨s.inTs, b⟩ = (liveSlots (absorbTerminator b s), (absorbTerminator b s).frame) := by
  have full : 14 ≤ 14 := Nat.le_refl 14
  by_cases complete : AscendingRun 14 (liveSlots s ++ [⟨s.inTs, b⟩])
  · rw [ringOnByte_match full complete, absorbTerminator_match b s run ((matches_pushedWindow_iff b s).mpr complete),
      frame_recognise complete, liveSlots_of_cnt_zero (recognise_cnt b s)]
  · rw [ringOnByte_noMatch full complete, absorbTerminator_noMatch b s run (mt (matches_pushedWindow_iff b s).mp complete),
      liveSlots_retain]
    rfl

/-- The operation that carries a byte is its class (30_encoding.md R69). -/
theorem eq_byteInstr_of_carried {i : Instr} {idx dat : Nibble} (h : carried i = some (idx, dat)) : i = byteInstr idx dat := by
  cases i <;> cases h <;> rfl

/-- A byte class does what R88 says of its byte. -/
theorem exec_of_carried {i : Instr} {idx dat : Nibble} (h : carried i = some (idx, dat)) (s : State) :
    exec i s = .next (absorbTerminator (mkByte idx dat) s) := by
  rw [eq_byteInstr_of_carried h, exec_byteInstr]

/-- No byte leaves RUN, and the count stays in range (10_state.md R22). -/
theorem absorbTerminator_run_cnt_le (b : Byte) {s : State} (run : s.term = .run) :
    (absorbTerminator b s).term = .run ∧ (absorbTerminator b s).cnt.toNat ≤ 14 := by
  obtain ⟨-, -, eq⟩ | ⟨-, -, eq⟩ | ⟨ended, -⟩ := absorbTerminator_cases b s
  · rw [eq]; exact ⟨run, Nat.zero_le 14⟩
  · rw [eq]; exact ⟨run, bumpCount_le s.cnt⟩
  · exact absurd run ended

/-- In RUN every byte class goes on in RUN, with the live slots and the Frame of a ring of capacity 14. -/
theorem exec_carried_ring {i : Instr} {idx dat : Nibble} {s : State} (run : s.term = .run) (h : carried i = some (idx, dat)) :
    ∃ t, exec i s = .next t ∧ t.term = .run ∧ t.cnt.toNat ≤ 14 ∧
      ringOnByte 14 (liveSlots s) ⟨s.inTs, mkByte idx dat⟩ = (liveSlots t, t.frame) := by
  obtain ⟨runT, countT⟩ := absorbTerminator_run_cnt_le (mkByte idx dat) run
  exact ⟨_, exec_of_carried h s, runT, countT, ringOnByte_liveSlots (mkByte idx dat) run⟩

/-! ### Buffers of other capacities (R95) -/

/-- The window stands for a buffer when its live slots are the buffer's newest 14 entries, or all it has. -/
theorem bufferRel_iff (L : List Slot) (s : State) : BufferRel L s ↔ s.cnt.toNat ≤ 14 ∧ liveSlots s = lastEntries 14 L := by
  constructor
  · rintro ⟨count, live⟩
    refine ⟨by omega, live.trans ?_⟩
    rw [count, Nat.min_comm, lastEntries_min_length]
  · rintro ⟨inRange, live⟩
    have count : s.cnt.toNat = min 14 L.length := by
      rw [← lastEntries_length, ← live, liveSlots_length, Nat.min_eq_left inRange]
    refine ⟨by omega, live.trans ?_⟩
    rw [count, lastEntries_min_length]

/-- A ring of capacity 14 holds the newest 14 entries of a larger one, and emits the same (40_synchronizer.md R95). -/
theorem ringOnByte_lastEntries {cap : Nat} (h : 14 ≤ cap) (L : List Slot) (x : Slot) :
    ringOnByte 14 (lastEntries 14 L) x = (lastEntries 14 (ringOnByte cap L x).1, (ringOnByte cap L x).2) := by
  have full : 14 ≤ 14 := Nat.le_refl 14
  have newest : lastEntries 14 (lastEntries 14 L ++ [x]) = lastEntries 14 (L ++ [x]) := by
    rw [lastEntries_snoc, lastEntries_snoc, lastEntries_lastEntries (by decide)]
  have same : AscendingRun 14 (lastEntries 14 L ++ [x]) ↔ AscendingRun 14 (L ++ [x]) := by
    rw [← ascendingRun_lastEntries_iff full, newest, ascendingRun_lastEntries_iff full]
  by_cases run : AscendingRun 14 (L ++ [x])
  · rw [ringOnByte_match full (same.mpr run), ringOnByte_match h run, newest]
    rfl
  · rw [ringOnByte_noMatch full (mt same.mp run), ringOnByte_noMatch h run, newest, lastEntries_lastEntries h]

/-- The source's buffer is a ring that is not yet full (40_synchronizer.md R95). -/
theorem bufferOnByte_eq_ringOnByte {cap : Nat} {L : List Slot} (room : L.length < cap) (x : Slot) :
    bufferOnByte L x = ringOnByte cap L x := by
  have whole : lastEntries cap (L ++ [x]) = L ++ [x] := lastEntries_of_length_le (by simpa using room)
  simp only [bufferOnByte, ringOnByte, whole]

/-- A ring never holds more than its capacity (40_synchronizer.md R95). -/
theorem ringOnByte_length_le {cap : Nat} (h : 14 ≤ cap) (L : List Slot) (x : Slot) :
    (ringOnByte cap L x).1.length ≤ cap := by
  by_cases run : AscendingRun 14 (L ++ [x])
  · rw [ringOnByte_match h run]; exact Nat.zero_le cap
  · rw [ringOnByte_noMatch h run, lastEntries_length]; exact Nat.min_le_left _ _

/-- Settles O49: the window is a ring of capacity 14, which holds the newest entries of any larger one. -/
theorem windowFollowsARingBuffer : Obligations.WindowFollowsARingBuffer := by
  unfold Obligations.WindowFollowsARingBuffer
  intro cap L s i idx dat h rel run byte
  obtain ⟨-, live⟩ := (bufferRel_iff L s).mp rel
  obtain ⟨t, event, runT, countT, ring⟩ := exec_carried_ring run byte
  obtain ⟨liveT, frameT⟩ := Prod.mk.inj ((live ▸ ring).symm.trans (ringOnByte_lastEntries h L _))
  exact ⟨t, event, runT, (bufferRel_iff _ t).mpr ⟨countT, liveT⟩, frameT, ringOnByte_length_le h L _⟩

/-- Settles O47: the source's buffer on a byte is a ring with room for it, so the window follows it as it does a ring. -/
theorem windowFollowsTheSourceBuffer : Obligations.WindowFollowsTheSourceBuffer := by
  unfold Obligations.WindowFollowsTheSourceBuffer
  intro L s i idx dat rel run byte
  rw [bufferOnByte_eq_ringOnByte (cap := L.length + 14) (by omega)]
  obtain ⟨t, event, runT, relT, frameT, -⟩ :=
    windowFollowsARingBuffer (L.length + 14) L s i idx dat (by omega) rel run byte
  exact ⟨t, event, runT, relT, frameT⟩

end Sys2Proof.Proofs
end

section
/-! PROOFS. The buffer that is never cleared (40_synchronizer.md R99) and the run position (R100), byte by byte. -/

namespace Sys2Proof.Proofs

open Sys2Proof Sys2Proof.Machine Sys2Proof.Claims

/-! ### The buffer that is never cleared (R99) -/

/-- The live slots `V` stand for the newest entries of the uncleared buffer `L`: they are its newest 14 or all it has, or they stand
right after a terminator. -/
def UnclearedFollows (L V : List Slot) : Prop := V = lastEntries 14 L ∨ ∃ pre y, L = pre ++ y :: V ∧ byteIdx y.b = 0xE#4

/-- The window stands for the uncleared buffer when its live slots do. -/
theorem unclearedRel_iff (L : List Slot) (s : State) :
    UnclearedRel L s ↔ s.cnt.toNat ≤ 14 ∧ UnclearedFollows L (liveSlots s) := by
  constructor
  · rintro ⟨count, live, all | ⟨pre, y, before, terminator⟩⟩
    · exact ⟨by omega, .inl ((bufferRel_iff L s).mp ⟨all, live⟩).2⟩
    · refine ⟨by omega, .inr ⟨pre, y, ?_, terminator⟩⟩
      calc L = L.take (L.length - s.cnt.toNat) ++ lastEntries s.cnt.toNat L := (List.take_append_drop _ L).symm
        _ = pre ++ y :: liveSlots s := by rw [before, ← live, List.append_assoc]; rfl
  · rintro ⟨inRange, live | ⟨pre, y, rfl, terminator⟩⟩
    · obtain ⟨all, same⟩ := (bufferRel_iff L s).mpr ⟨inRange, live⟩
      exact ⟨by omega, same, .inl all⟩
    · have count : (liveSlots s).length = s.cnt.toNat := by rw [liveSlots_length, Nat.min_eq_left inRange]
      have split : pre ++ y :: liveSlots s = (pre ++ [y]) ++ liveSlots s := by simp
      have before : (pre ++ y :: liveSlots s).length - s.cnt.toNat = (pre ++ [y]).length := by
        rw [split, List.length_append, count, Nat.add_sub_cancel]
      refine ⟨by rw [split, List.length_append, count]; omega, ?_, .inr ⟨pre, y, ?_, terminator⟩⟩
      · rw [lastEntries.eq_def s.cnt.toNat (pre ++ y :: liveSlots s), before, split, List.drop_left]
        rfl
      · rw [before, split, List.take_left]

section
variable {L V : List Slot}

theorem UnclearedFollows.suffix (h : UnclearedFollows L V) : V <:+ L := by
  obtain rfl | ⟨pre, y, rfl, -⟩ := h
  · exact lastEntries_suffix 14 L
  · exact ⟨pre ++ [y], by simp⟩

/-- No run of 13 holds a terminator: its index is 14 (40_synchronizer.md R99). -/
theorem AscendingRun.no_terminator (run : AscendingRun 13 L) : ∀ y ∈ lastEntries 13 L, byteIdx y.b ≠ 0xE#4 := by
  intro y mem terminator
  have listed : byteIdx y.b ∈ indexRun.take 13 := run ▸ List.mem_map_of_mem mem
  rw [terminator] at listed
  exact absurd listed (by decide)

/-- A run of 13 on the uncleared buffer lies in the live slots, since it cannot reach over a terminator (40_synchronizer.md R99). -/
theorem UnclearedFollows.reach (h : UnclearedFollows L V) (run : AscendingRun 13 L) : 13 ≤ V.length := by
  obtain rfl | ⟨pre, y, rfl, terminator⟩ := h
  · have := run.le_length (by decide)
    rw [lastEntries_length]
    omega
  · by_contra short
    have newest : lastEntries (y :: V).length (lastEntries 13 (pre ++ y :: V)) = y :: V := by
      rw [lastEntries_lastEntries (by simp; omega), ← lastEntries_of_suffix (List.suffix_append pre _) (Nat.le_refl _),
        lastEntries_of_length_le (Nat.le_refl _)]
    have mem : y ∈ lastEntries 13 (pre ++ y :: V) :=
      (lastEntries_suffix (y :: V).length _).subset (by rw [newest]; exact List.mem_cons_self)
    exact run.no_terminator y mem terminator

/-- With 13 live slots or more, both buffers end in the same 14 after a byte. -/
theorem lastEntries_snoc_of_suffix (h : V <:+ L) (reach : 13 ≤ V.length) (x : Slot) :
    lastEntries 14 (V ++ [x]) = lastEntries 14 (L ++ [x]) := by
  rw [lastEntries_snoc, lastEntries_snoc, lastEntries_of_suffix h reach]

/-- A byte completes a run of 14 on the uncleared buffer exactly when it does on the live slots (40_synchronizer.md R99). -/
theorem UnclearedFollows.completes_iff (h : UnclearedFollows L V) (x : Slot) :
    AscendingRun 14 (V ++ [x]) ↔ AscendingRun 14 (L ++ [x]) := by
  have same (reach : 13 ≤ V.length) : AscendingRun 14 (V ++ [x]) ↔ AscendingRun 14 (L ++ [x]) := by
    rw [AscendingRun, AscendingRun, lastEntries_snoc_of_suffix h.suffix reach]
  constructor
  · intro run
    have older := ((ascendingRun_snoc_iff (Nat.le_refl 13) V x).mp run).1
    exact (same (older.le_length (by decide))).mp run
  · intro run
    have older := ((ascendingRun_snoc_iff (Nat.le_refl 13) L x).mp run).1
    exact (same (h.reach older)).mpr run

/-- The uncleared buffer on a byte that completes a run of 14. -/
theorem unclearedOnByte_match {x : Slot} (run : AscendingRun 14 (L ++ [x])) :
    unclearedOnByte L x = (L ++ [x], frameOf (lastEntries 14 (L ++ [x]))) := by
  rw [unclearedOnByte, if_pos ((bufferMatches_snoc_iff L x).mpr run)]

/-- The uncleared buffer on a byte that does not. -/
theorem unclearedOnByte_noMatch {x : Slot} (noRun : ¬AscendingRun 14 (L ++ [x])) :
    unclearedOnByte L x = (L ++ [x], none) := by
  rw [unclearedOnByte, if_neg (mt (bufferMatches_snoc_iff L x).mp noRun)]

/-- A byte that completes no frame joins the live slots and the uncleared buffer alike. -/
theorem UnclearedFollows.snoc (h : UnclearedFollows L V) (x : Slot) :
    UnclearedFollows (L ++ [x]) (lastEntries 14 (V ++ [x])) := by
  rcases Nat.lt_or_ge V.length 13 with short | reach
  · have whole : lastEntries 14 (V ++ [x]) = V ++ [x] := lastEntries_of_length_le (by simp; omega)
    rw [whole]
    obtain rfl | ⟨pre, y, rfl, terminator⟩ := h
    · left
      have all : L.length ≤ 14 := by rw [lastEntries_length] at short; omega
      rw [← whole, lastEntries_of_length_le all]
    · exact .inr ⟨pre, y, by simp, terminator⟩
  · exact .inl (lastEntries_snoc_of_suffix h.suffix reach x)

/-- On every byte the cleared and the uncleared buffer emit the same Frame, and go on standing for each other. -/
theorem UnclearedFollows.onByte (h : UnclearedFollows L V) (x : Slot) :
    (ringOnByte 14 V x).2 = (unclearedOnByte L x).2 ∧ UnclearedFollows (unclearedOnByte L x).1 (ringOnByte 14 V x).1 := by
  by_cases run : AscendingRun 14 (V ++ [x])
  · have runL := (h.completes_iff x).mp run
    have reach := h.reach ((ascendingRun_snoc_iff (Nat.le_refl 13) L x).mp runL).1
    rw [ringOnByte_match (Nat.le_refl 14) run, unclearedOnByte_match runL]
    have terminator := ((bufferMatches_snoc_iff L x).mpr runL).1
    exact ⟨congrArg frameOf (lastEntries_snoc_of_suffix h.suffix reach x), .inr ⟨L, x, rfl, terminator⟩⟩
  · rw [ringOnByte_noMatch (Nat.le_refl 14) run, unclearedOnByte_noMatch (mt (h.completes_iff x).mpr run)]
    exact ⟨rfl, h.snoc x⟩

end

/-- Settles O50: the window is a ring of capacity 14, and no run of 14 reaches over a terminator before the live slots. -/
theorem windowFollowsTheUnclearedBuffer : Obligations.WindowFollowsTheUnclearedBuffer := by
  unfold Obligations.WindowFollowsTheUnclearedBuffer
  intro L s i idx dat rel run byte
  obtain ⟨-, follows⟩ := (unclearedRel_iff L s).mp rel
  obtain ⟨t, event, runT, countT, ring⟩ := exec_carried_ring run byte
  obtain ⟨frame, followsT⟩ := follows.onByte ⟨s.inTs, mkByte idx dat⟩
  rw [ring] at frame followsT
  exact ⟨t, event, runT, (unclearedRel_iff _ t).mpr ⟨countT, followsT⟩, frame⟩

/-! ### The run position (R100) -/

/-- The last `p` pairs of `V` are a run, `dn` holds their data nibbles, and `ts0` is the first one's timestamp. -/
structure RunAt (p : Nat) (dn : Vector Nibble 14) (ts0 : TS) (V : List Slot) : Prop where
  run     : AscendingRun p V
  nibbles : (lastEntries p V).map (fun x => byteDat x.b) = dn.toList.take p
  stamp   : ∀ x, (lastEntries p V).head? = some x → x.ts = ts0

/-- The run position stands for the live slots `V`: it is their longest run short of a whole frame (40_synchronizer.md R100). -/
structure RunPosFollows (r : RunPos) (V : List Slot) : Prop extends RunAt r.p r.dn r.ts0 V where
  le      : r.p ≤ 13
  longest : ∀ q, q ≤ 13 → AscendingRun q V → q ≤ r.p

section
variable {p : Nat} {dn : Vector Nibble 14} {ts0 : TS} {V : List Slot} {r : RunPos} {x : Slot}

/-- The empty run, with any nibbles and timestamp. -/
theorem runAt_zero (dn : Vector Nibble 14) (ts0 : TS) (V : List Slot) : RunAt 0 dn ts0 V :=
  ⟨ascendingRun_zero V, by simp, by simp⟩

/-- A run shows in the last entries that hold it. -/
theorem RunAt.inLastEntries {n : Nat} (h : RunAt p dn ts0 V) (le : p ≤ n) : RunAt p dn ts0 (lastEntries n V) where
  run := (ascendingRun_lastEntries_iff le V).mpr h.run
  nibbles := by rw [lastEntries_lastEntries le]; exact h.nibbles
  stamp := by rw [lastEntries_lastEntries le]; exact h.stamp

/-- The next index extends the run, writes its nibble, and stamps the run if it is the first (40_synchronizer.md R100). -/
theorem RunAt.extend (h : RunAt p dn ts0 V) (le : p ≤ 13) (index : (byteIdx x.b).toNat = p + 1) :
    RunAt (p + 1) (dn.setIfInBounds p (byteDat x.b)) (if p = 0 then x.ts else ts0) (V ++ [x]) where
  run := (ascendingRun_snoc_iff le V x).mpr ⟨h.run, index⟩
  nibbles := by
    have written : p < (dn.setIfInBounds p (byteDat x.b)).toList.length := by simp; omega
    rw [lastEntries_snoc, List.map_append, h.nibbles, List.take_succ_eq_append_getElem written]
    simp [List.take_set_of_le]
  stamp y head := by
    rw [lastEntries_snoc, List.head?_append] at head
    split
    case isTrue first =>
      subst first
      obtain rfl : x = y := by simpa using head
      rfl
    case isFalse later =>
      have reach := h.run.le_length (by omega)
      obtain ⟨z, oldest⟩ : ∃ z, (lastEntries p V).head? = some z :=
        Option.isSome_iff_exists.mp (List.isSome_head?.mpr (List.ne_nil_of_length_pos (by simp; omega)))
      rw [oldest] at head
      obtain rfl : z = y := by simpa using head
      exact h.stamp z oldest

/-- A whole run's Frame is the nibbles and the timestamp kept for it (40_synchronizer.md R100). -/
theorem RunAt.frameOf_eq (h : RunAt 14 dn ts0 V) : frameOf (lastEntries 14 V) = some ⟨packNibbles dn.toList, ts0⟩ := by
  have nibbles := h.nibbles
  have stamp := h.stamp
  have whole : dn.toList.take 14 = dn.toList := List.take_of_length_le (by simp)
  cases slots : lastEntries 14 V with
  | nil =>
    have := h.run.le_length (Nat.le_refl 14)
    have := congrArg List.length slots
    rw [lastEntries_length, List.length_nil] at this
    omega
  | cons y ys =>
    rw [slots, whole] at nibbles
    rw [frameOf, nibbles, stamp y (by rw [slots]; rfl)]

/-- A byte completes a run of 14 exactly when the position is 13 and its index 14. -/
theorem RunPosFollows.completes_iff (h : RunPosFollows r V) :
    AscendingRun 14 (V ++ [x]) ↔ r.p = 13 ∧ (byteIdx x.b).toNat = 14 := by
  rw [ascendingRun_snoc_iff (Nat.le_refl 13)]
  refine and_congr_left fun _ => ⟨fun run => ?_, fun full => full ▸ h.run⟩
  exact Nat.le_antisymm h.le (h.longest 13 (Nat.le_refl 13) run)

/-- The run position after a byte that continues the run short of a whole frame. -/
theorem runPosOnByte_extend (below : r.p < 13) (index : (byteIdx x.b).toNat = r.p + 1) : runPosOnByte r x =
    (⟨r.p + 1, r.dn.setIfInBounds r.p (byteDat x.b), if r.p = 0 then x.ts else r.ts0⟩, none) := by
  have short : r.p ≠ 13 := by omega
  simp [runPosOnByte, index, short]

/-- The run position after the byte that completes a frame, and the Frame. -/
theorem runPosOnByte_complete (full : r.p = 13) (index : (byteIdx x.b).toNat = 14) : runPosOnByte r x =
    (⟨0, r.dn.setIfInBounds 13 (byteDat x.b), r.ts0⟩,
      some ⟨packNibbles (r.dn.setIfInBounds 13 (byteDat x.b)).toList, r.ts0⟩) := by
  simp [runPosOnByte, index, full]

/-- The run position after a byte with index 1, which starts a run whatever the position was. -/
theorem runPosOnByte_start (index : (byteIdx x.b).toNat = 1) : runPosOnByte r x =
    (⟨1, r.dn.setIfInBounds 0 (byteDat x.b), x.ts⟩, none) := by
  simp [runPosOnByte, index]

/-- The run position after a byte out of sequence. -/
theorem runPosOnByte_break (broken : (byteIdx x.b).toNat ≠ r.p + 1) (noStart : (byteIdx x.b).toNat ≠ 1) :
    runPosOnByte r x = (⟨0, r.dn, r.ts0⟩, none) := by
  simp [runPosOnByte, broken, noStart]

/-- A run of as many as the newest index says is the longest. -/
theorem runPosFollows_of_index (run : RunAt p dn ts0 (V ++ [x])) (le : p ≤ 13) (index : (byteIdx x.b).toNat = p) :
    RunPosFollows ⟨p, dn, ts0⟩ (lastEntries 14 (V ++ [x])) where
  toRunAt := run.inLastEntries (by omega)
  le := le
  longest q leQ runQ := by
    show q ≤ p
    have := ((ascendingRun_lastEntries_iff (by omega) _).mp runQ).eq_zero_or_index (by omega)
    omega

/-- A byte out of sequence ends every run: the run it would continue has another length than the one there is. -/
theorem RunPosFollows.of_break (h : RunPosFollows r V) (broken : (byteIdx x.b).toNat ≠ r.p + 1)
    (noStart : (byteIdx x.b).toNat ≠ 1) : RunPosFollows ⟨0, r.dn, r.ts0⟩ (lastEntries 14 (V ++ [x])) where
  toRunAt := runAt_zero r.dn r.ts0 _
  le := Nat.zero_le 13
  longest q leQ runQ := by
    cases q with
    | zero => exact Nat.le_refl 0
    | succ q =>
      obtain ⟨older, index⟩ := (ascendingRun_snoc_iff (by omega) V x).mp ((ascendingRun_lastEntries_iff (by omega) _).mp runQ)
      have shorter := h.longest q (by omega) older
      have same := older.eq_of_pos h.run (by omega) (by omega) (by omega) (by have := h.le; omega)
      omega

/-- On every byte the run-position design emits the Frame the live slots emit, and its position goes on standing for them. -/
theorem RunPosFollows.onByte (h : RunPosFollows r V) (x : Slot) :
    (ringOnByte 14 V x).2 = (runPosOnByte r x).2 ∧ RunPosFollows (runPosOnByte r x).1 (ringOnByte 14 V x).1 := by
  by_cases complete : r.p = 13 ∧ (byteIdx x.b).toNat = 14
  · obtain ⟨full, index⟩ := complete
    have whole := h.toRunAt.extend h.le (by omega : (byteIdx x.b).toNat = r.p + 1)
    rw [full] at whole
    rw [ringOnByte_match (Nat.le_refl 14) (h.completes_iff.mpr ⟨full, index⟩), runPosOnByte_complete full index]
    refine ⟨whole.frameOf_eq, ⟨runAt_zero _ _ _, Nat.zero_le 13, fun q leQ run => ?_⟩⟩
    simpa using run.le_length (by omega)
  · rw [ringOnByte_noMatch (Nat.le_refl 14) (mt h.completes_iff.mp complete)]
    by_cases index : (byteIdx x.b).toNat = r.p + 1
    · have below : r.p < 13 := by have := h.le; omega
      rw [runPosOnByte_extend below index]
      exact ⟨rfl, runPosFollows_of_index (h.toRunAt.extend h.le index) below index⟩
    · by_cases first : (byteIdx x.b).toNat = 1
      · rw [runPosOnByte_start first]
        exact ⟨rfl, runPosFollows_of_index ((runAt_zero r.dn r.ts0 V).extend (Nat.zero_le 13) first) (by decide) first⟩
      · rw [runPosOnByte_break index first]
        exact ⟨rfl, h.of_break index first⟩

end

/-- The run position stands for the window when it stands for the live slots. -/
theorem runPosRel_iff (r : RunPos) (s : State) : RunPosRel r s ↔ RunPosFollows r (liveSlots s) := by
  have live (q : Nat) (h : q ≤ s.cnt.toNat) : lastEntries q (liveSlots s) = lastEntries q s.window.toList :=
    lastEntries_lastEntries h _
  have counted {q : Nat} (le : q ≤ 13) (run : AscendingRun q (liveSlots s)) : q ≤ s.cnt.toNat := by
    have reach : q ≤ min s.cnt.toNat 14 := by simpa using run.le_length (by omega)
    omega
  constructor
  · rintro ⟨le, reach, run, nibbles, stamp, longest⟩
    rw [← live r.p reach] at run nibbles stamp
    refine ⟨⟨run, nibbles, stamp⟩, le, fun q leQ runQ => ?_⟩
    have reachQ := counted leQ runQ
    exact longest q leQ reachQ (live q reachQ ▸ runQ)
  · rintro ⟨⟨run, nibbles, stamp⟩, le, longest⟩
    have reach := counted le run
    rw [AscendingRun, live r.p reach] at run
    rw [live r.p reach] at nibbles stamp
    refine ⟨le, reach, run, nibbles, stamp, fun q leQ reachQ runQ => longest q leQ ?_⟩
    rw [AscendingRun, live q reachQ, runQ]

/-- Settles O51: the window is a ring of capacity 14, whose longest run the position keeps. -/
theorem runPositionFollowsTheWindow : Obligations.RunPositionFollowsTheWindow := by
  unfold Obligations.RunPositionFollowsTheWindow
  intro r s i idx dat rel run byte
  obtain ⟨t, event, runT, -, ring⟩ := exec_carried_ring run byte
  obtain ⟨frame, followsT⟩ := ((runPosRel_iff r s).mp rel).onByte ⟨s.inTs, mkByte idx dat⟩
  rw [ring] at frame followsT
  exact ⟨t, event, runT, (runPosRel_iff _ t).mpr followsT, frame⟩

end Sys2Proof.Proofs
end

section
/-! PROOFS. The synchronizer's operations one at a time (40_synchronizer.md R85 to R98): what each does, and what it leaves. -/

namespace Sys2Proof.Proofs

open Sys2Proof Sys2Proof.Machine Sys2Proof.Claims

/-- Settles O15: the push's own lemmas, for the slots below the newest, the newest, and the count. -/
theorem pushShiftsWindowAndCounts : Obligations.PushShiftsWindowAndCounts := by
  unfold Obligations.PushShiftsWindowAndCounts
  exact fun W c b ts => ⟨pushWindow_below W ⟨ts, b⟩, pushWindow_newest W ⟨ts, b⟩, bumpCount_toNat c⟩

/-! ### Bytes that are absorbed or ignored -/

/-- A retained byte is pushed, and changes nothing but the window, the count and `frame_valid` (40_synchronizer.md R86). -/
theorem absorbed_retain (b : Byte) (s : State) : Absorbed b s (retain b s) where
  pushed := ⟨pushWindow_newest s.window ⟨s.inTs, b⟩, pushWindow_below s.window ⟨s.inTs, b⟩⟩
  count := bumpCount_toNat s.cnt
  frameValid := rfl
  term := rfl
  frameD := rfl
  frameTs := rfl
  ports := ⟨rfl, rfl, rfl, rfl, rfl, rfl⟩

/-- Clearing `frame_valid` is all that an ignored event does (40_synchronizer.md R98). -/
theorem ignored_clearFrameValid (s : State) : Ignored s (clearFrameValid s) :=
  ⟨rfl, rfl, rfl, rfl, rfl, rfl, ⟨rfl, rfl, rfl, rfl, rfl, rfl⟩⟩

/-- A byte class other than the terminator's absorbs its byte in RUN and ignores it in the terminal state. -/
theorem exec_carried_absorbed {i : Instr} {idx dat : Nibble} (byte : carried i = some (idx, dat)) (noTerminator : idx ≠ 0xE#4)
    (s : State) : exec i s = .next (absorb (mkByte idx dat) s) ∧
      (s.term = .run → Absorbed (mkByte idx dat) s (absorb (mkByte idx dat) s)) ∧
      (s.term ≠ .run → Ignored s (absorb (mkByte idx dat) s)) := by
  refine ⟨?_, fun run => ?_, fun ended => ?_⟩
  · rw [eq_byteInstr_of_carried byte, exec_byteInstr_of_ne idx dat s noTerminator]
  · rw [absorb_run _ s run]; exact absorbed_retain _ s
  · rw [absorb_ended _ s ended]; exact ignored_clearFrameValid s

/-- Settles O17: an index from 1 to 13 is no terminator's. -/
theorem indexedBytesAreAbsorbed : Obligations.IndexedBytesAreAbsorbed := by
  unfold Obligations.IndexedBytesAreAbsorbed
  intro i idx dat s byte _ below
  have noTerminator : idx ≠ 0xE#4 := by rintro rfl; exact absurd below (by decide)
  exact ⟨_, exec_carried_absorbed byte noTerminator s⟩

/-! ### The terminator -/

/-- The class FTERM does what R88 says of the byte with index 14. -/
theorem exec_fterm (dat : Nibble) (s : State) : exec (.fterm dat) s = .next (absorbTerminator (mkByte 0xE#4 dat) s) := rfl

/-- MATCH with the count and the indexes as numbers (40_synchronizer.md R90). -/
theorem matches_iff_toNat (W : Vector Slot 14) (c : BitVec 4) : Matches W (bumpCount c) ↔
    min (c.toNat + 1) 14 = 14 ∧ byteIdx W[13].b = 0xE#4 ∧ ∀ k : Fin 14, (byteIdx W[k].b).toNat = k.val + 1 := by
  have full : bumpCount c = 14#4 ↔ min (c.toNat + 1) 14 = 14 := by rw [bumpCount_eq_full]; omega
  refine and_congr full (and_congr_right fun _ => forall_congr' fun k => ?_)
  rw [← BitVec.toNat_inj, BitVec.toNat_ofNat, Nat.mod_eq_of_lt (by omega)]

/-- The pushed window is the one whose slots are those R85 gives. -/
theorem eq_pushedWindow {b : Byte} {s : State} {W : Vector Slot 14} (newest : W[13] = ⟨s.inTs, b⟩)
    (shifted : ∀ (k : Nat) (h : k < 13), W[k] = s.window[k + 1]) : W = pushedWindow b s := by
  refine Vector.ext fun k hk => ?_
  rcases Nat.lt_or_ge k 13 with below | top
  · rw [shifted k below, pushedWindow, pushWindow_below _ _ k below]
  · obtain rfl : k = 13 := by omega
    exact newest

/-- Settles O18: the three branches of R88, with MATCH by numbers and the Frame nibble by nibble. -/
theorem terminatorEmitsExactlyOnMatch : Obligations.TerminatorEmitsExactlyOnMatch := by
  unfold Obligations.TerminatorEmitsExactlyOnMatch
  intro dat s W newest shifted
  obtain rfl := eq_pushedWindow newest shifted
  refine ⟨fun run complete => ?_, fun run noMatch => ?_, fun ended => ?_⟩
  · rw [exec_fterm, absorbTerminator_match _ s run ((matches_iff_toNat _ s.cnt).mpr complete)]
    exact ⟨_, rfl, rfl, nibbleAt_packFrame _, rfl, rfl, rfl, run, ⟨rfl, rfl, rfl, rfl, rfl, rfl⟩⟩
  · rw [exec_fterm, absorbTerminator_noMatch _ s run (mt (matches_iff_toNat _ s.cnt).mp noMatch)]
    exact ⟨_, rfl, absorbed_retain _ s⟩
  · rw [exec_fterm, absorbTerminator_ended _ s ended]
    exact ⟨_, rfl, ignored_clearFrameValid s⟩

/-- Settles O19: a count that stays below 14 fails MATCH's first clause. -/
theorem tooFewBytesNeverMatch : Obligations.TooFewBytesNeverMatch := by
  unfold Obligations.TooFewBytesNeverMatch
  intro dat s run few
  have noMatch : ¬Matches (pushedWindow (mkByte 0xE#4 dat) s) (bumpCount s.cnt) := fun m => by
    have full := (bumpCount_eq_full s.cnt).mp m.1
    omega
  rw [exec_fterm, absorbTerminator_noMatch _ s run noMatch]
  refine ⟨_, rfl, rfl, ?_⟩
  rw [retain_cnt, bumpCount_toNat]
  omega

/-! ### The terminal state -/

/-- In the terminal state every event but RST clears `frame_valid` and does nothing else (40_synchronizer.md R98). -/
theorem exec_of_ended {i : Instr} {s : State} (event : EventNotReset i) (ended : s.term ≠ .run) :
    exec i s = .next (clearFrameValid s) := by
  cases i with
  | idle => rfl
  | eos => rw [exec_eos, endStream_ended _ s ended]
  | ioerr => rw [exec_ioerr, endStream_ended _ s ended]
  | rst | decode => cases event
  | noise0 | fidx1 | fidx2 | fidx3 | fidx4 | fidx5 | fidx6 | fidx7 | fidx8 | fidx9 | fidx10 | fidx11 | fidx12 | fidx13 | fterm
  | noise15 => rw [exec_of_carried rfl s, absorbTerminator_ended _ s ended]

/-- RST leaves states with the same tables alike: no slot is live after it (40_synchronizer.md R97). -/
theorem alike_takeReset_of_tables {s t : State} (tables : t.tables = s.tables) : Alike id (takeReset s) (takeReset t) where
  term := rfl
  cnt := rfl
  live k live := by simp at live; omega
  tables := tables

/-- Renaming every timestamp to itself changes no beat. -/
theorem map_mapTs_id (xs : List InputBeat) : xs.map (InputBeat.mapTs id) = xs := List.map_id xs

/-- Renaming every timestamp to itself changes nothing seen. -/
theorem obs_map_mapTs_id (os : List Obs) : os.map (Obs.mapTs id) = os := by
  have same : ∀ o : Obs, o.mapTs id = o := fun ⟨frame, reading, code⟩ => by
    cases frame <;> cases reading <;> rfl
  rw [funext same]
  exact List.map_id os

/-- Settles O23: what RST writes, the unwinding theorem for what follows it, and R98 for the other events. -/
theorem resetRestoresTheStart : Obligations.ResetRestoresTheStart := by
  unfold Obligations.ResetRestoresTheStart
  refine ⟨fun s => ⟨_, exec_rst s, rfl, rfl, rfl, rfl, rfl, rfl, rfl, rfl⟩, fun s s' xs tables => ?_,
    fun i s event ended => ⟨_, exec_of_ended event ended, rfl⟩⟩
  obtain ⟨os, u, u', runS, runS', -⟩ := alikeStatesCannotBeToldApart id _ _ xs (alike_takeReset_of_tables tables)
  rw [map_mapTs_id, obs_map_mapTs_id] at runS'
  exact ⟨_, _, os, u, u', exec_rst s, exec_rst s', runS, runS'⟩

end Sys2Proof.Proofs
end

section
/-! PROOFS. Streams: the machine over a list of beats shows the Frames of the spec's other descriptions of the synchronizer
(40_synchronizer.md R95, R99, R100), and what follows of every stream (R93 to R103). -/

namespace Sys2Proof.Proofs

open Sys2Proof Sys2Proof.Machine Sys2Proof.Claims

/-! ### A step by its beat's event -/

/-- The operation of an event (30_encoding.md R69). -/
def instrOf : Event → Instr
  | .idle => .idle
  | .byte x => byteInstr (byteIdx x.b) (byteDat x.b)
  | .eos => .eos
  | .ioErr => .ioerr
  | .rst => .rst

/-- The two nibbles of an input word are its low byte (30_encoding.md R66). -/
theorem byteInstr_lowByte (w : InputWord) :
    byteInstr (byteIdx (w.setWidth 8)) (byteDat (w.setWidth 8)) = byteInstr (inputIdx w) (inputDat w) := by
  rw [byteIdx, byteDat, BitVec.extractLsb'_setWidth_of_le (by decide), BitVec.extractLsb'_setWidth_of_le (by decide)]
  rfl

/-- The decoder and R67's reading of the bits agree on every beat. -/
theorem decodeInput_eq_instrOf (x : InputBeat) : decodeInput x.word = instrOf (eventOf x) := by
  unfold decodeInput eventOf
  cases x.word.getLsbD 11 with
  | true => rfl
  | false =>
    cases x.word.getLsbD 10 with
    | true => rfl
    | false =>
      cases x.word.getLsbD 9 with
      | true => rfl
      | false =>
        cases x.word.getLsbD 8 with
        | true => exact (byteInstr_lowByte x.word).symm
        | false => rfl

/-- What an event does to the machine, with a byte's timestamp on the port. -/
def respond : Event → State → State
  | .idle => clearFrameValid
  | .byte x => absorbTerminator x.b
  | .eos => endStream .eos
  | .ioErr => endStream .ioErr
  | .rst => takeReset

/-- The operation of an event does what `respond` says. -/
theorem exec_instrOf (e : Event) (s : State) : exec (instrOf e) s = .next (respond e s) := by
  cases e with
  | idle | eos | ioErr | rst => rfl
  | byte x => rw [instrOf, exec_byteInstr, mkByte_byteIdx_byteDat]; rfl

/-- The state after the step on the beat `x`: its event, DEC driven, and the next beat on the port. -/
def afterBeat (x : InputBeat) (s : State) : State :=
  advanceInput (driveDec (respond (eventOf x) (s.present x)).frameD (respond (eventOf x) (s.present x)))

theorem step_present (x : InputBeat) (s : State) : step (s.present x) = .next (afterBeat x s) := by
  refine step_of_exec ?_
  rw [fetchEvent, present_inWord, decodeInput_eq_instrOf, exec_instrOf]

/-- A run over a beat and more goes on from `afterBeat`. -/
theorem run_cons_afterBeat_iff {s t : State} {x : InputBeat} {xs : List InputBeat} {os : List Obs} :
    Run s (x :: xs) os t ↔ ∃ os1, os = (afterBeat x s).obs :: os1 ∧ Run (afterBeat x s) xs os1 t := by
  rw [run_cons_iff]
  constructor
  · rintro ⟨s1, os1, first, shown, rest⟩
    obtain rfl := Host.Outcome.next.inj ((step_present x s).symm.trans first)
    exact ⟨os1, shown, rest⟩
  · rintro ⟨os1, shown, rest⟩
    exact ⟨_, os1, step_present x s, shown, rest⟩

section
variable (x : InputBeat) (s : State)

@[simp] theorem afterBeat_window : (afterBeat x s).window = (respond (eventOf x) (s.present x)).window := by simp [afterBeat]
@[simp] theorem afterBeat_cnt : (afterBeat x s).cnt = (respond (eventOf x) (s.present x)).cnt := by simp [afterBeat]
@[simp] theorem afterBeat_term : (afterBeat x s).term = (respond (eventOf x) (s.present x)).term := by simp [afterBeat]
@[simp] theorem afterBeat_liveSlots : liveSlots (afterBeat x s) = liveSlots (respond (eventOf x) (s.present x)) := by
  simp [liveSlots]
@[simp] theorem afterBeat_obs_frame : (afterBeat x s).obs.frame = (respond (eventOf x) (s.present x)).frame := by
  simp [afterBeat, obs_afterEvent]

end

/-- In the terminal state every event but RST clears `frame_valid` and does nothing else (40_synchronizer.md R98). -/
theorem respond_of_ended {e : Event} {s : State} (noReset : e ≠ .rst) (ended : s.Over) : respond e s = clearFrameValid s := by
  cases e with
  | idle => rfl
  | byte x => exact absorbTerminator_ended x.b s ended
  | eos => exact endStream_ended .eos s ended
  | ioErr => exact endStream_ended .ioErr s ended
  | rst => exact absurd rfl noReset

/-! ### The terminal state over a stream -/

/-- Without RST the terminal state stays as it is and shows no Frame (40_synchronizer.md R98). -/
theorem run_of_ended {xs : List InputBeat} {s t : State} {os : List Obs} (run : Run s xs os t) (ended : s.Over)
    (noReset : NoReset xs) : NoFrames os ∧ t.term = s.term ∧ t.window = s.window ∧ t.cnt = s.cnt := by
  induction xs generalizing s os with
  | nil =>
    obtain ⟨rfl, rfl⟩ := run_nil_iff.mp run
    exact ⟨nofun, rfl, rfl, rfl⟩
  | cons x xs ih =>
    obtain ⟨noResetX, noResetXs⟩ := List.forall_mem_cons.mp noReset
    obtain ⟨os1, rfl, rest⟩ := run_cons_afterBeat_iff.mp run
    have ignored : respond (eventOf x) (s.present x) = clearFrameValid (s.present x) := respond_of_ended noResetX ended
    have term : (afterBeat x s).term = s.term := by rw [afterBeat_term, ignored]; rfl
    obtain ⟨noFrames, termT, windowT, cntT⟩ := ih rest (term.trans_ne ended) noResetXs
    refine ⟨List.forall_mem_cons.mpr ⟨?_, noFrames⟩, termT.trans term, windowT.trans ?_, cntT.trans ?_⟩
    · rw [afterBeat_obs_frame, ignored]; rfl
    · rw [afterBeat_window, ignored]; rfl
    · rw [afterBeat_cnt, ignored]; rfl

/-- Settles O24: each event by `exec_of_ended`, and streams by `run_of_ended`. -/
theorem terminalStateIgnoresAllButReset : Obligations.TerminalStateIgnoresAllButReset := by
  unfold Obligations.TerminalStateIgnoresAllButReset
  refine ⟨fun i s ended event => ⟨_, exec_of_ended event ended, ignored_clearFrameValid s⟩, fun s xs ended noReset => ?_⟩
  obtain ⟨os, t, run⟩ := run_exists xs s
  exact ⟨os, t, run, run_of_ended run ended noReset⟩

/-- After a terminal event no Frame follows without RST, and from RUN the code stays (40_synchronizer.md R94, R96). -/
theorem run_after_endStream {code : TermStatus} (ends : code ≠ .run) (s : State) {xs : List InputBeat} (noReset : NoReset xs) :
    ∃ os u, Run (endStream code s) xs os u ∧ NoFrames os ∧ (s.term = .run → u.termCode = code.code) := by
  obtain ⟨os, u, stream⟩ := run_exists xs (endStream code s)
  by_cases run : s.term = .run
  · have term : (endStream code s).term = code := by rw [endStream_run code s run]; rfl
    obtain ⟨noFrames, termU, -⟩ := run_of_ended stream (term.trans_ne ends) noReset
    exact ⟨os, u, stream, noFrames, fun _ => by rw [State.termCode, termU, term]⟩
  · have term : (endStream code s).term = s.term := by rw [endStream_ended code s run]; rfl
    obtain ⟨noFrames, -⟩ := run_of_ended stream (term.trans_ne run) noReset
    exact ⟨os, u, stream, noFrames, fun h => absurd h run⟩

/-- Settles O21: the two branches of R94, and `run_after_endStream` for what follows. -/
theorem endOfStreamIsTerminal : Obligations.EndOfStreamIsTerminal := by
  unfold Obligations.EndOfStreamIsTerminal
  intro s
  refine ⟨fun run => ?_, fun ended => ?_, fun xs noReset => ?_⟩
  · rw [exec_eos, endStream_run _ s run]; rfl
  · rw [exec_eos, endStream_ended _ s ended]; rfl
  · obtain ⟨os, u, stream, noFrames, code⟩ := run_after_endStream (code := .eos) (by decide) s noReset
    exact ⟨_, os, u, exec_eos s, stream, noFrames, code⟩

/-- Settles O22: the two branches of R96, and `run_after_endStream` for what follows. -/
theorem deviceFailureIsTerminal : Obligations.DeviceFailureIsTerminal := by
  unfold Obligations.DeviceFailureIsTerminal
  intro s
  refine ⟨fun run => ?_, fun ended => ?_, fun xs noReset => ?_⟩
  · rw [exec_ioerr, endStream_run _ s run]; rfl
  · rw [exec_ioerr, endStream_ended _ s ended]; rfl
  · obtain ⟨os, u, stream, noFrames, code⟩ := run_after_endStream (code := .ioErr) (by decide) s noReset
    exact ⟨_, os, u, exec_ioerr s, stream, noFrames, code⟩

/-! ### Detectors over a stream -/

/-- A beat is IDLE, a terminal event, RST or a byte. -/
theorem eventOf_cases (x : InputBeat) : eventOf x = .idle ∨ EndsStream x ∨ eventOf x = .rst ∨ ∃ y, eventOf x = .byte y := by
  cases h : eventOf x with
  | idle => exact .inl rfl
  | eos => exact .inr (.inl (.inl h))
  | ioErr => exact .inr (.inl (.inr h))
  | rst => exact .inr (.inr (.inl rfl))
  | byte y => exact .inr (.inr (.inr ⟨y, rfl⟩))

section
variable {M : Type} (D : Detector M) {x : InputBeat} (xs : List InputBeat) (m : M) (ended : Bool)

theorem frames_of_idle (h : eventOf x = .idle) : D.frames m ended (x :: xs) = none :: D.frames m ended xs := by
  simp [Detector.frames, h]

theorem frames_of_endsStream (h : EndsStream x) : D.frames m ended (x :: xs) = none :: D.frames m true xs := by
  rcases h with h | h <;> simp [Detector.frames, h]

theorem frames_of_rst (h : eventOf x = .rst) : D.frames m ended (x :: xs) = none :: D.frames D.empty false xs := by
  simp [Detector.frames, h]

theorem frames_of_byte {y : Slot} (h : eventOf x = .byte y) :
    D.frames m false (x :: xs) = (D.onByte m y).2 :: D.frames (D.onByte m y).1 false xs := by
  simp [Detector.frames, h]

theorem frames_of_byte_ended {y : Slot} (h : eventOf x = .byte y) :
    D.frames m true (x :: xs) = none :: D.frames m true xs := by
  simp [Detector.frames, h]

/-- A detector shows one entry a beat. -/
theorem frames_length : (D.frames m ended xs).length = xs.length := by
  induction xs generalizing m ended with
  | nil => rfl
  | cons x xs ih =>
    obtain h | h | h | ⟨y, h⟩ := eventOf_cases x
    · simp [frames_of_idle D xs m ended h, ih]
    · simp [frames_of_endsStream D xs m ended h, ih]
    · simp [frames_of_rst D xs m ended h, ih]
    · cases ended with
      | false => simp [frames_of_byte D xs m h, ih]
      | true => simp [frames_of_byte_ended D xs m h, ih]

/-- IDLE beats add nothing to the Frames and change nothing of the memory (40_synchronizer.md R93). -/
theorem frames_filter_idle : (D.frames m ended xs).filterMap id
    = (D.frames m ended (xs.filter fun x => eventOf x ≠ .idle)).filterMap id := by
  induction xs generalizing m ended with
  | nil => rfl
  | cons x xs ih =>
    by_cases idle : eventOf x = .idle
    · rw [List.filter_cons_of_neg (by simpa using idle), frames_of_idle D xs m ended idle, List.filterMap_cons_none rfl]
      exact ih m ended
    · rw [List.filter_cons_of_pos (by simpa using idle)]
      obtain h | h | h | ⟨y, h⟩ := eventOf_cases x
      · exact absurd h idle
      · rw [frames_of_endsStream D _ m ended h, frames_of_endsStream D _ m ended h, List.filterMap_cons, List.filterMap_cons, ih]
      · rw [frames_of_rst D _ m ended h, frames_of_rst D _ m ended h, List.filterMap_cons, List.filterMap_cons, ih]
      · cases ended with
        | false => rw [frames_of_byte D _ m h, frames_of_byte D _ m h, List.filterMap_cons, List.filterMap_cons, ih]
        | true =>
          rw [frames_of_byte_ended D _ m h, frames_of_byte_ended D _ m h, List.filterMap_cons, List.filterMap_cons, ih]

end

/-- A relation that holds between two detectors' empty memories and that every byte keeps, with the same Frame. -/
structure Simulation {M N : Type} (D : Detector M) (E : Detector N) (R : M → N → Prop) : Prop where
  empty  : R D.empty E.empty
  onByte : ∀ m n y, R m n → (E.onByte n y).2 = (D.onByte m y).2 ∧ R (D.onByte m y).1 (E.onByte n y).1

/-- Detectors whose memories stand for each other emit the same Frames over every stream. -/
theorem Simulation.frames_eq {M N : Type} {D : Detector M} {E : Detector N} {R : M → N → Prop} (sim : Simulation D E R)
    {m : M} {n : N} (rel : R m n) (ended : Bool) (xs : List InputBeat) : E.frames n ended xs = D.frames m ended xs := by
  induction xs generalizing m n ended with
  | nil => rfl
  | cons x xs ih =>
    obtain h | h | h | ⟨y, h⟩ := eventOf_cases x
    · rw [frames_of_idle E xs n ended h, frames_of_idle D xs m ended h, ih rel]
    · rw [frames_of_endsStream E xs n ended h, frames_of_endsStream D xs m ended h, ih rel]
    · rw [frames_of_rst E xs n ended h, frames_of_rst D xs m ended h, ih sim.empty]
    · cases ended with
      | false =>
        obtain ⟨frame, next⟩ := sim.onByte m n y rel
        rw [frames_of_byte E xs n h, frames_of_byte D xs m h, frame, ih next]
      | true => rw [frames_of_byte_ended E xs n h, frames_of_byte_ended D xs m h, ih rel]

/-! ### The machine is a ring buffer of capacity 14 over every stream -/

theorem endStream_frame (code : TermStatus) (s : State) : (endStream code s).frame = none := by
  by_cases run : s.term = .run
  · rw [endStream_run code s run]; rfl
  · rw [endStream_ended code s run]; rfl

theorem endStream_liveSlots (code : TermStatus) (s : State) : liveSlots (endStream code s) = liveSlots s := by
  by_cases run : s.term = .run
  · rw [endStream_run code s run]; rfl
  · rw [endStream_ended code s run]; rfl

theorem endStream_over {code : TermStatus} (ends : code ≠ .run) (s : State) : (endStream code s).Over := by
  by_cases run : s.term = .run
  · rw [endStream_run code s run]; exact ends
  · rw [endStream_ended code s run]; exact run

/-- The byte of a beat comes with the beat's timestamp (30_encoding.md R67). -/
theorem ts_of_byte {x : InputBeat} {y : Slot} (h : eventOf x = .byte y) : x.ts = y.ts := by
  unfold eventOf at h
  split at h <;> cases h
  rfl

/-- States with the same status are over together. -/
theorem decide_over_congr {s t : State} (h : t.term = s.term) : decide t.Over = decide s.Over := by simp [h]

/-- On a byte the machine is a ring of capacity 14, ended when the machine is over. -/
theorem ring_frames_byte {x : InputBeat} {y : Slot} (h : eventOf x = .byte y) (xs : List InputBeat) (s : State) :
    (ringDetector 14).frames (liveSlots s) (decide s.Over) (x :: xs)
      = (absorbTerminator y.b (s.present x)).frame :: (ringDetector 14).frames
          (liveSlots (absorbTerminator y.b (s.present x))) (decide (absorbTerminator y.b (s.present x)).Over) xs := by
  by_cases run : s.term = .run
  · have ring : (ringDetector 14).onByte (liveSlots s) ⟨x.ts, y.b⟩ = _ := ringOnByte_liveSlots (s := s.present x) y.b run
    rw [ts_of_byte h] at ring
    have running := (absorbTerminator_run_cnt_le (s := s.present x) y.b run).1
    have going : decide s.Over = false := by simp [run]
    rw [decide_over_congr (running.trans run.symm), going, frames_of_byte _ xs _ h, ring]
  · have ended : decide s.Over = true := decide_eq_true run
    have stays : decide (clearFrameValid (s.present x)).Over = true := decide_eq_true run
    rw [absorbTerminator_ended y.b (s.present x) run, stays, ended, frames_of_byte_ended _ xs _ h]
    rfl

/-- On a terminal event the machine is a ring of capacity 14, and is over. -/
theorem ring_frames_endStream {x : InputBeat} (h : EndsStream x) {code : TermStatus} (ends : code ≠ .run)
    (xs : List InputBeat) (s : State) :
    (ringDetector 14).frames (liveSlots s) (decide s.Over) (x :: xs)
      = (endStream code (s.present x)).frame :: (ringDetector 14).frames
          (liveSlots (endStream code (s.present x))) (decide (endStream code (s.present x)).Over) xs := by
  rw [frames_of_endsStream _ xs _ _ h, endStream_frame, endStream_liveSlots, decide_eq_true (endStream_over ends _)]
  rfl

/-- On every beat the machine is a ring of capacity 14, ended when the machine is over. -/
theorem ring_frames_respond (x : InputBeat) (xs : List InputBeat) (s : State) :
    (ringDetector 14).frames (liveSlots s) (decide s.Over) (x :: xs)
      = (respond (eventOf x) (s.present x)).frame :: (ringDetector 14).frames
          (liveSlots (respond (eventOf x) (s.present x))) (decide (respond (eventOf x) (s.present x)).Over) xs := by
  cases h : eventOf x with
  | idle => exact frames_of_idle _ xs _ _ h
  | byte y => exact ring_frames_byte h xs s
  | eos => exact ring_frames_endStream (.inl h) (by decide) xs s
  | ioErr => exact ring_frames_endStream (.inr h) (by decide) xs s
  | rst =>
    have noneLive : liveSlots (respond .rst (s.present x)) = [] := liveSlots_of_cnt_zero rfl
    rw [frames_of_rst _ xs _ _ h, noneLive]
    rfl

/-- Over every list of beats and from every state the machine shows the Frames of a ring of capacity 14 that starts with the live
slots (40_synchronizer.md R95). -/
theorem run_frames_ring {xs : List InputBeat} {s t : State} {os : List Obs} (run : Run s xs os t) :
    os.map Obs.frame = (ringDetector 14).frames (liveSlots s) (decide s.Over) xs := by
  induction xs generalizing s os with
  | nil =>
    obtain ⟨rfl, rfl⟩ := run_nil_iff.mp run
    rfl
  | cons x xs ih =>
    obtain ⟨os1, rfl, rest⟩ := run_cons_afterBeat_iff.mp run
    rw [List.map_cons, ih rest, ring_frames_respond, afterBeat_obs_frame, afterBeat_liveSlots,
      decide_over_congr (afterBeat_term x s)]

/-! ### The other descriptions of the synchronizer (R95, R99, R100) -/

/-- A ring of any capacity from 14 up simulates one of capacity 14. -/
theorem simulation_ring {cap : Nat} (h : 14 ≤ cap) :
    Simulation (ringDetector cap) (ringDetector 14) fun L V => V = lastEntries 14 L where
  empty := rfl
  onByte L V x rel := by
    subst rel
    have same : (ringDetector 14).onByte (lastEntries 14 L) x = _ := ringOnByte_lastEntries h L x
    rw [same]
    exact ⟨rfl, rfl⟩

/-- The source's unbounded buffer simulates a ring of capacity 14. -/
theorem simulation_buffer : Simulation bufferDetector (ringDetector 14) fun L V => V = lastEntries 14 L where
  empty := rfl
  onByte L V x rel := by
    have buffer : bufferDetector.onByte L x = (ringDetector (L.length + 14)).onByte L x :=
      bufferOnByte_eq_ringOnByte (by omega) x
    rw [buffer]
    exact (simulation_ring (by omega)).onByte L V x rel

/-- The buffer that is never cleared simulates the one that is. -/
theorem simulation_uncleared : Simulation unclearedDetector (ringDetector 14) UnclearedFollows where
  empty := .inl rfl
  onByte _ _ x rel := rel.onByte x

/-- The run-position design simulates a ring of capacity 14, whatever its nibbles and timestamp start with. -/
theorem simulation_runPos (dn : Vector Nibble 14) (ts0 : TS) :
    Simulation (runPosDetector dn ts0) (ringDetector 14) RunPosFollows where
  empty := ⟨runAt_zero dn ts0 [], Nat.zero_le 13, fun q le run => run.le_length (by omega)⟩
  onByte _ _ x rel := rel.onByte x

section
variable {s t : State} {xs : List InputBeat} {os : List Obs}

/-- A fresh machine shows the Frames of any description that simulates a ring of capacity 14. -/
theorem run_frames_of_fresh {M : Type} {D : Detector M} {R : M → List Slot → Prop} (sim : Simulation D (ringDetector 14) R)
    (fresh : s.Fresh) (run : Run s xs os t) : os.map Obs.frame = D.frames D.empty false xs := by
  obtain ⟨empty, running⟩ := fresh
  rw [run_frames_ring run, liveSlots_of_cnt_zero empty, decide_eq_false (by simpa using running)]
  exact sim.frames_eq sim.empty false xs

/-- From every state the machine shows the Frames of a buffer that is never cleared and starts with the live slots. -/
theorem run_frames_uncleared (run : Run s xs os t) :
    os.map Obs.frame = unclearedDetector.frames (liveSlots s) (decide s.Over) xs := by
  have all : liveSlots s = lastEntries 14 (liveSlots s) := (lastEntries_of_length_le (by simp)).symm
  rw [run_frames_ring run]
  exact simulation_uncleared.frames_eq (.inl all) _ xs

end

/-- Settles O48: both buffers simulate the ring of capacity 14 that the window is. -/
theorem anyBufferCapacityEmitsTheSame : Obligations.AnyBufferCapacityEmitsTheSame := by
  unfold Obligations.AnyBufferCapacityEmitsTheSame
  intro s xs cap fresh h
  obtain ⟨os, t, run⟩ := run_exists xs s
  exact ⟨os, t, run, run_frames_of_fresh simulation_buffer fresh run, run_frames_of_fresh (simulation_ring h) fresh run⟩

/-- Settles O52: the uncleared buffer simulates the ring of capacity 14 that the window is. -/
theorem clearingChangesNoFrame : Obligations.ClearingChangesNoFrame := by
  unfold Obligations.ClearingChangesNoFrame
  intro s xs fresh
  obtain ⟨os, t, run⟩ := run_exists xs s
  exact ⟨os, t, run, run_frames_of_fresh simulation_uncleared fresh run⟩

/-- Settles O53: the run-position design simulates the ring of capacity 14 that the window is. -/
theorem runPositionDesignIsEquivalent : Obligations.RunPositionDesignIsEquivalent := by
  unfold Obligations.RunPositionDesignIsEquivalent
  intro s xs dn ts0 fresh
  obtain ⟨os, t, run⟩ := run_exists xs s
  exact ⟨os, t, run, run_frames_of_fresh (simulation_runPos dn ts0) fresh run⟩

/-- Settles O20: the machine is a detector from every state, and detectors pass over IDLE beats. -/
theorem idleOnlyClearsFrameValid : Obligations.IdleOnlyClearsFrameValid := by
  unfold Obligations.IdleOnlyClearsFrameValid
  refine ⟨exec_idle, fun xs s => ?_⟩
  obtain ⟨os, t, run⟩ := run_exists xs s
  obtain ⟨os', t', run'⟩ := run_exists (xs.filter fun x => eventOf x ≠ .idle) s
  have shown (ps : List Obs) : ps.filterMap Obs.frame = (ps.map Obs.frame).filterMap id := by
    rw [List.filterMap_map]; rfl
  refine ⟨os, t, os', t', run, run', ?_⟩
  rw [shown, shown, run_frames_ring run, run_frames_ring run']
  exact frames_filter_idle _ xs _ _

end Sys2Proof.Proofs
end

section
/-! PROOFS. Which bytes a Frame comes from (40_synchronizer.md R86, R89, R101, R102, R103), read from the buffer that is never cleared
(R99). -/

namespace Sys2Proof.Proofs

open Sys2Proof Sys2Proof.Machine Sys2Proof.Claims

/-! ### The bytes of a stream -/

@[simp] theorem bytesOf_cons_byte {x : InputBeat} {y : Slot} (h : eventOf x = .byte y) (xs : List InputBeat) :
    bytesOf (x :: xs) = y :: bytesOf xs := by
  simp [bytesOf, h, Event.slot?]

theorem bytesOf_cons_of_none {x : InputBeat} (h : (eventOf x).slot? = none) (xs : List InputBeat) :
    bytesOf (x :: xs) = bytesOf xs := by
  simp [bytesOf, h]

@[simp] theorem bytesOf_append (xs ys : List InputBeat) : bytesOf (xs ++ ys) = bytesOf xs ++ bytesOf ys :=
  List.filterMap_append

/-- The bytes after the first beat end the bytes of the whole. -/
theorem bytesOf_suffix (x : InputBeat) (xs : List InputBeat) : bytesOf xs <:+ bytesOf (x :: xs) := by
  rw [← List.singleton_append, bytesOf_append]
  exact List.suffix_append _ _

/-- An event with a byte is that byte's. -/
theorem eventOf_of_slot?_isSome {x : InputBeat} (h : (eventOf x).slot?.isSome = true) : ∃ y, eventOf x = .byte y := by
  cases e : eventOf x with
  | byte y => exact ⟨y, rfl⟩
  | idle | eos | ioErr | rst => simp [e, Event.slot?] at h

/-! ### Frames of the uncleared buffer -/

/-- In the terminal state what is in the memory is never looked at: only RST leaves it, with an empty memory. -/
theorem frames_ended_eq {M : Type} (D : Detector M) (m n : M) (xs : List InputBeat) :
    D.frames m true xs = D.frames n true xs := by
  induction xs generalizing m n with
  | nil => rfl
  | cons x xs ih =>
    obtain h | h | h | ⟨y, h⟩ := eventOf_cases x
    · rw [frames_of_idle D xs m true h, frames_of_idle D xs n true h, ih]
    · rw [frames_of_endsStream D xs m true h, frames_of_endsStream D xs n true h, ih]
    · rw [frames_of_rst D xs m true h, frames_of_rst D xs n true h]
    · rw [frames_of_byte_ended D xs m h, frames_of_byte_ended D xs n h, ih]

/-- The memory of the uncleared buffer takes every byte. -/
theorem unclearedOnByte_memory (L : List Slot) (x : Slot) : (unclearedOnByte L x).1 = L ++ [x] := rfl

/-- A Frame is that of a run of 14 at the end of the buffer. -/
theorem unclearedOnByte_frame {L : List Slot} {x : Slot} {f : Frame} (h : (unclearedOnByte L x).2 = some f) :
    AscendingRun 14 (L ++ [x]) ∧ frameOf (lastEntries 14 (L ++ [x])) = some f := by
  by_cases run : AscendingRun 14 (L ++ [x])
  · rw [unclearedOnByte_match run] at h
    exact ⟨run, h⟩
  · rw [unclearedOnByte_noMatch run] at h
    cases h

/-- 14 consecutive pairs of `L` have the frame-index nibbles 1 to 14. -/
def HoldsFrame (L : List Slot) : Prop := ∃ l, l.IsInfix L ∧ indexes l = indexRun

theorem HoldsFrame.mono {K L : List Slot} (h : HoldsFrame K) (part : K <:+: L) : HoldsFrame L := by
  obtain ⟨l, inside, run⟩ := h
  exact ⟨l, inside.trans part, run⟩

/-- The indexes 1 to 14 are those of 14 pairs. -/
theorem length_of_indexRun {l : List Slot} (indexed : indexes l = indexRun) : l.length = 14 := by
  rw [← indexes_length, indexed]
  rfl

/-- A list that ends with the indexes 1 to 14 ends with a run of 14. -/
theorem ascendingRun_of_indexRun {l : List Slot} (indexed : indexes l = indexRun) (L : List Slot) :
    lastEntries 14 (L ++ l) = l ∧ AscendingRun 14 (L ++ l) := by
  have length := length_of_indexRun indexed
  have newest : lastEntries 14 (L ++ l) = l := by
    rw [← lastEntries_of_suffix (List.suffix_append L l) length.ge, lastEntries_of_length_le length.le]
  refine ⟨newest, ?_⟩
  rw [AscendingRun, newest, indexed]
  rfl

theorem HoldsFrame.length_le {L : List Slot} (h : HoldsFrame L) : 14 ≤ L.length := by
  obtain ⟨l, inside, run⟩ := h
  exact length_of_indexRun run ▸ inside.length_le

/-- The bytes `B` complete a frame behind the buffer `L`: its 14 bytes are consecutive in both together, and `B` has a terminator. -/
structure CompletesFrame (L B : List Slot) : Prop where
  holds      : HoldsFrame (L ++ B)
  terminator : ∃ y ∈ B, byteIdx y.b = 0xE#4

theorem CompletesFrame.mono {K L B C : List Slot} (h : CompletesFrame K B) (part : K ++ B <:+: L ++ C) (bytes : B ⊆ C) :
    CompletesFrame L C := by
  obtain ⟨holds, y, mem, terminator⟩ := h
  exact ⟨holds.mono part, y, bytes mem, terminator⟩

/-- A byte that makes the uncleared buffer emit completes a frame, alone and with what follows. -/
theorem completesFrame_of_onByte {L : List Slot} {y : Slot} {f : Frame} (h : (unclearedOnByte L y).2 = some f) (B : List Slot) :
    CompletesFrame L (y :: B) := by
  obtain ⟨run, -⟩ := unclearedOnByte_frame h
  have bytes : L ++ y :: B = (L ++ [y]) ++ B := by simp
  have part : lastEntries 14 (L ++ [y]) <:+: L ++ y :: B :=
    (lastEntries_suffix 14 _).isInfix.trans (bytes ▸ List.infix_append [] _ _)
  exact ⟨⟨_, part, run⟩, y, List.mem_cons_self, ((bufferMatches_snoc_iff L y).mpr run).1⟩

/-- A stream that shows a Frame completes it behind what the buffer held; one that starts in the terminal state, from its own bytes
(40_synchronizer.md R101, R102). -/
theorem completesFrame_of_uncleared_frame {xs : List InputBeat} {L : List Slot} {ended : Bool} {f : Frame}
    (shown : some f ∈ unclearedDetector.frames L ended xs) (empty : ended = true → L = []) :
    CompletesFrame L (bytesOf xs) := by
  induction xs generalizing L ended with
  | nil => cases shown
  | cons x xs ih =>
    have suffix := bytesOf_suffix x xs
    have later (h : CompletesFrame [] (bytesOf xs)) : CompletesFrame L (bytesOf (x :: xs)) :=
      h.mono (suffix.trans (List.suffix_append L _)).isInfix suffix.subset
    obtain h | h | h | ⟨y, h⟩ := eventOf_cases x
    · rw [frames_of_idle _ xs L ended h] at shown
      rw [bytesOf_cons_of_none (by rw [h]; rfl)]
      exact ih ((List.mem_cons.mp shown).resolve_left nofun) empty
    · rw [frames_of_endsStream _ xs L ended h, frames_ended_eq _ L []] at shown
      exact later (ih ((List.mem_cons.mp shown).resolve_left nofun) fun _ => rfl)
    · rw [frames_of_rst _ xs L ended h] at shown
      exact later (ih (L := []) ((List.mem_cons.mp shown).resolve_left nofun) fun _ => rfl)
    · cases ended with
      | true =>
        rw [frames_of_byte_ended _ xs L h, frames_ended_eq _ L []] at shown
        exact later (ih ((List.mem_cons.mp shown).resolve_left nofun) fun _ => rfl)
      | false =>
        rw [frames_of_byte _ xs L h] at shown
        rw [bytesOf_cons_byte h]
        rcases List.mem_cons.mp shown with now | after
        · exact completesFrame_of_onByte now.symm _
        · have taken : L ++ [y] ++ bytesOf xs <:+: L ++ y :: bytesOf xs := by
            rw [List.append_assoc]
            exact List.infix_refl _
          exact (ih (L := L ++ [y]) after nofun).mono taken (List.subset_cons_self y _)

/-- Over bytes and IDLEs the uncleared buffer takes every byte, and goes on from there. -/
theorem uncleared_frames_append {xs : List InputBeat} (plain : BytesAndIdles xs) (L : List Slot) (ys : List InputBeat) :
    unclearedDetector.frames L false (xs ++ ys)
      = unclearedDetector.frames L false xs ++ unclearedDetector.frames (L ++ bytesOf xs) false ys := by
  induction xs generalizing L with
  | nil => simp [bytesOf, Detector.frames]
  | cons x xs ih =>
    obtain ⟨plainX, plainXs⟩ := List.forall_mem_cons.mp plain
    rw [List.cons_append]
    obtain h | h := plainX
    · rw [frames_of_idle _ _ L false h, frames_of_idle _ _ L false h, ih plainXs, bytesOf_cons_of_none (by rw [h]; rfl)]
      rfl
    · obtain ⟨y, h⟩ := eventOf_of_slot?_isSome h
      rw [frames_of_byte _ _ L h, frames_of_byte _ _ L h, ih plainXs, bytesOf_cons_byte h]
      simp [unclearedDetector, unclearedOnByte_memory]

/-! ### Frames of the machine -/

section
variable {s t : State} {xs : List InputBeat} {os : List Obs}

/-- A Frame seen is one of the uncleared buffer's (40_synchronizer.md R99). -/
theorem uncleared_frame_of_run (run : Run s xs os t) (shown : ∃ o ∈ os, o.frame ≠ none) :
    ∃ f, some f ∈ unclearedDetector.frames (liveSlots s) (decide s.Over) xs := by
  obtain ⟨o, mem, seen⟩ := shown
  obtain ⟨f, frame⟩ := Option.ne_none_iff_exists'.mp seen
  exact ⟨f, run_frames_uncleared run ▸ frame ▸ List.mem_map_of_mem mem⟩

/-- A stream from RUN that shows a Frame holds its bytes together with the live slots. -/
theorem holdsFrame_of_run (run : Run s xs os t) (going : s.term = .run) (shown : ∃ o ∈ os, o.frame ≠ none) :
    HoldsFrame (liveSlots s ++ bytesOf xs) := by
  obtain ⟨f, frame⟩ := uncleared_frame_of_run run shown
  exact (completesFrame_of_uncleared_frame frame (by simp [going])).holds

/-- A stream from an empty window that shows a Frame holds all its bytes. -/
theorem holdsFrame_of_run_of_empty (run : Run s xs os t) (empty : s.cnt = 0#4) (shown : ∃ o ∈ os, o.frame ≠ none) :
    HoldsFrame (bytesOf xs) := by
  obtain ⟨f, frame⟩ := uncleared_frame_of_run run shown
  rw [liveSlots_of_cnt_zero empty] at frame
  exact (completesFrame_of_uncleared_frame frame fun _ => rfl).holds

/-- Where no Frame could have come from, none is seen. -/
theorem noFrames_of_not_shown (h : ¬∃ o ∈ os, o.frame ≠ none) : NoFrames os :=
  fun o mem => by_contra fun seen => h ⟨o, mem, seen⟩

/-- What is seen last is seen of the state the run ends in. -/
theorem run_getLast? (run : Run s xs os t) (steps : xs ≠ []) : os.getLast? = some t.obs := by
  induction run with
  | done => exact absurd rfl steps
  | @beat s s1 t x xs os first rest ih =>
    cases xs with
    | nil =>
      obtain ⟨rfl, rfl⟩ := run_nil_iff.mp rest
      rfl
    | cons y ys => rw [List.getLast?_cons, ih (List.cons_ne_nil y ys)]; rfl

end

/-- After a recognition the window is empty (40_synchronizer.md R92). -/
theorem cnt_of_frame {r s : State} (first : step r = .next s) (seen : s.frame ≠ none) : s.cnt = 0#4 := by
  obtain ⟨s1, effect, rfl⟩ := step_effect first
  have valid : s1.frameValid = true := by simpa using seen
  simpa using (effect.pulse valid).1

/-- The last beat of bytes and IDLEs shows a Frame only of the newest 14 bytes. -/
theorem uncleared_frames_singleton {L : List Slot} {x : InputBeat} {f : Frame}
    (plain : eventOf x = .idle ∨ (eventOf x).slot?.isSome = true) (shown : unclearedDetector.frames L false [x] = [some f]) :
    some f = frameOf (lastEntries 14 (L ++ bytesOf [x])) := by
  obtain h | h := plain
  · rw [frames_of_idle _ [] L false h] at shown
    cases shown
  · obtain ⟨y, h⟩ := eventOf_of_slot?_isSome h
    rw [frames_of_byte _ [] L h] at shown
    rw [bytesOf_cons_byte h]
    exact (unclearedOnByte_frame (List.cons.inj shown).1).2.symm

/-- Settles O54: the uncleared buffer ends with the newest bytes, and a Frame from an empty window has all its bytes in the stream. -/
theorem frameIsTheFourteenNewestBytes : Obligations.FrameIsTheFourteenNewestBytes := by
  unfold Obligations.FrameIsTheFourteenNewestBytes
  refine ⟨fun s xs fresh plain steps => ?_, fun s xs start => ?_⟩
  · obtain ⟨os, t, run⟩ := run_exists xs s
    refine ⟨os, t, run, fun f frame => ?_⟩
    have last : (os.map Obs.frame).getLast? = some t.frame := by
      rw [List.getLast?_map, run_getLast? run steps]
      rfl
    obtain ⟨ys, y, rfl⟩ : ∃ ys y, xs = ys ++ [y] := ⟨_, _, (List.dropLast_append_getLast steps).symm⟩
    obtain ⟨plainYs, plainY⟩ := List.forall_mem_append.mp plain
    obtain ⟨o, shown⟩ := List.length_eq_one_iff.mp (frames_length unclearedDetector [y] ([] ++ bytesOf ys) false)
    have frames : os.map Obs.frame = unclearedDetector.frames [] false (ys ++ [y]) :=
      run_frames_of_fresh simulation_uncleared fresh run
    rw [frames, uncleared_frames_append plainYs, shown, List.getLast?_concat, frame] at last
    obtain rfl := Option.some.inj last
    rw [bytesOf_append]
    exact uncleared_frames_singleton (plainY y (by simp)) shown
  · have empty : s.cnt = 0#4 := start.elim id fun ⟨r, first, seen⟩ => cnt_of_frame first seen
    obtain ⟨os, t, run⟩ := run_exists xs s
    exact ⟨os, t, run, fun shown => (holdsFrame_of_run_of_empty run empty shown).length_le⟩

/-- Settles O55: a Frame would come from 14 bytes of the stream indexed 1 to 14, whose first has not the high nibble 0. -/
theorem noIndexRunNoFrame : Obligations.NoIndexRunNoFrame := by
  unfold Obligations.NoIndexRunNoFrame
  intro s xs fresh
  obtain ⟨os, t, run⟩ := run_exists xs s
  have holds := holdsFrame_of_run_of_empty run fresh.1
  refine ⟨os, t, run, fun noRun => noFrames_of_not_shown fun shown => ?_, fun zeros => noFrames_of_not_shown fun shown => ?_⟩
  · obtain ⟨l, inside, indexed⟩ := holds shown
    exact noRun l inside indexed
  · obtain ⟨l, inside, indexed⟩ := holds shown
    have one : 0x1#4 ∈ indexes l := indexed ▸ by decide
    obtain ⟨y, mem, index⟩ := List.mem_map.mp one
    rw [zeros y (inside.subset mem)] at index
    exact absurd index (by decide)

/-! ### Bytes that block a frame (R86, R89) -/

/-- A byte of NOISE0 or NOISE15 has no place in a frame. -/
theorem noise_not_mem_indexRun {idx : Nibble} (noise : idx = 0x0#4 ∨ idx = 0xF#4) : idx ∉ indexRun := by
  rcases noise with rfl | rfl <;> decide

/-- A part longer than what stands on either side of an entry holds the entry. -/
theorem mem_of_infix {α : Type} {l K B : List α} {n : α} (inside : l <:+: K ++ n :: B) (before : K.length < l.length)
    (after : B.length < l.length) : n ∈ l := by
  obtain ⟨pre, post, eq⟩ := inside
  have lengths := congrArg List.length eq
  simp only [List.length_append, List.length_cons] at lengths
  have entry : (pre ++ l ++ post)[K.length]? = some n := by rw [eq]; simp
  rw [List.append_assoc, List.getElem?_append_right (by omega), List.getElem?_append_left (by omega)] at entry
  exact List.mem_of_getElem? entry

/-- With a noise byte newest among the live slots, a frame needs 14 bytes more (40_synchronizer.md R86). -/
theorem not_holdsFrame_of_noise {K B : List Slot} {n : Slot} (noise : byteIdx n.b = 0x0#4 ∨ byteIdx n.b = 0xF#4)
    (before : K.length < 14) (after : B.length < 14) : ¬HoldsFrame (K ++ n :: B) := by
  rintro ⟨l, inside, indexed⟩
  have length := length_of_indexRun indexed
  have mem : n ∈ l := mem_of_infix inside (length ▸ before) (length ▸ after)
  exact noise_not_mem_indexRun noise (indexed ▸ List.mem_map_of_mem mem)

/-- After a noise byte in RUN a stream of fewer than 14 bytes shows no Frame (40_synchronizer.md R86, R89). -/
theorem noFrames_after_noise {s t : State} {b : Byte} {xs : List InputBeat} {os : List Obs}
    (run : s.term = .run) (noise : byteIdx b = 0x0#4 ∨ byteIdx b = 0xF#4) (few : (bytesOf xs).length < 14)
    (stream : Run (retain b s) xs os t) : NoFrames os := by
  refine noFrames_of_not_shown fun shown => ?_
  have holds := holdsFrame_of_run stream run shown
  rw [liveSlots_retain, lastEntries_snoc, List.append_assoc] at holds
  exact not_holdsFrame_of_noise (n := ⟨s.inTs, b⟩) noise (by rw [lastEntries_length]; omega) few holds

/-- Settles O16: the noise classes are absorbed, no window with their bytes is in order, and no Frame's 14 bytes pass over one. -/
theorem noiseBytesAreAbsorbedAndBlock : Obligations.NoiseBytesAreAbsorbedAndBlock := by
  unfold Obligations.NoiseBytesAreAbsorbedAndBlock
  refine ⟨fun i idx dat s byte noise => ?_, fun W c k noise m => ?_⟩
  · have noTerminator : idx ≠ 0xE#4 := by rintro rfl; exact absurd noise (by decide)
    obtain ⟨event, absorbed, ignored⟩ := exec_carried_absorbed byte noTerminator s
    refine ⟨_, event, absorbed, ignored, fun xs run few => ?_⟩
    obtain ⟨os, u, stream⟩ := run_exists xs (absorb (mkByte idx dat) s)
    refine ⟨os, u, stream, ?_⟩
    rw [absorb_run _ s run] at stream
    exact noFrames_after_noise run (by simpa using noise) few stream
  · have listed : byteIdx W[k].b ∈ indexRun := by
      rw [m.2.2 k, ← indexRun_getElem k]
      exact List.getElem_mem _
    exact noise_not_mem_indexRun noise listed

/-! ### 14 bytes in order (R103) -/

/-- A byte that ends a frame's 14 completes it, whatever the buffer held before them. -/
theorem uncleared_frames_of_indexRun {L K : List Slot} {x : InputBeat} {y : Slot} (h : eventOf x = .byte y)
    (indexed : indexes (K ++ [y]) = indexRun) :
    unclearedDetector.frames (L ++ K) false [x] = [frameOf (K ++ [y])] := by
  obtain ⟨newest, run⟩ := ascendingRun_of_indexRun indexed L
  rw [← List.append_assoc] at newest run
  rw [frames_of_byte _ [] _ h]
  show [(unclearedOnByte (L ++ K) y).2] = _
  rw [unclearedOnByte_match run, newest]

/-- Bytes before a frame's terminator complete none (40_synchronizer.md R88). -/
theorem uncleared_frames_of_no_terminator {L : List Slot} {xs : List InputBeat}
    (noTerminator : ∀ y ∈ bytesOf xs, byteIdx y.b ≠ 0xE#4) :
    unclearedDetector.frames L false xs = List.replicate xs.length none := by
  refine List.eq_replicate_iff.mpr ⟨frames_length _ xs L false, fun o mem => ?_⟩
  by_contra seen
  obtain ⟨f, rfl⟩ := Option.ne_none_iff_exists'.mp seen
  obtain ⟨y, memY, terminator⟩ := (completesFrame_of_uncleared_frame mem nofun).terminator
  exact noTerminator y memY terminator

/-- Among 14 bytes indexed 1 to 14 only the last is a terminator. -/
theorem no_terminator_of_indexRun {K : List Slot} {y : Slot} (indexed : indexes (K ++ [y]) = indexRun) :
    ∀ z ∈ K, byteIdx z.b ≠ 0xE#4 := by
  obtain ⟨-, run⟩ := ascendingRun_of_indexRun indexed []
  have older := ((ascendingRun_snoc_iff (Nat.le_refl 13) K y).mp run).1
  have length : K.length ≤ 13 := by
    have whole : K.length + 1 = 14 := by simpa using length_of_indexRun indexed
    omega
  rw [← lastEntries_of_length_le length]
  exact older.no_terminator

/-- Settles O56: the uncleared buffer shows nothing before the terminator, and at it the Frame of its last 14 entries. -/
theorem fourteenIndexedBytesEmitTheirFrame : Obligations.FourteenIndexedBytesEmitTheirFrame := by
  unfold Obligations.FourteenIndexedBytesEmitTheirFrame
  intro s xs x going plain byte indexed
  obtain ⟨y, h⟩ := eventOf_of_slot?_isSome byte
  have bytes : bytesOf (xs ++ [x]) = bytesOf xs ++ [y] := by
    rw [bytesOf_append, bytesOf_cons_byte h]
    rfl
  rw [bytes] at indexed ⊢
  obtain ⟨os, t, run⟩ := run_exists (xs ++ [x]) s
  have notOver : decide s.Over = false := by simp [going]
  refine ⟨os, t, run, ?_⟩
  rw [run_frames_uncleared run, notOver, uncleared_frames_append plain,
    uncleared_frames_of_no_terminator (no_terminator_of_indexRun indexed), uncleared_frames_of_indexRun h indexed]

end Sys2Proof.Proofs
end

section
/-! PROOFS. The Frame Decoder (41_decoder.md): the lanes and the digits string (R106 to R110, R121), the last match (R112, R113), the
options (R114, R115), what DECODE drives (R105, R116) and the Reading of a step's Frame (R118). -/

namespace Sys2Proof.Proofs

open Sys2Proof Sys2Proof.Machine Sys2Proof.Claims

/-! ### The lanes -/

/-- The DigitByte is the number of its two nibbles (41_decoder.md R106, R120). -/
theorem digitByte_toNat (F : FrameWord) (i : Fin 4) : (digitByte F i).toNat = digitValue F i := by
  have low : (nibbleAt F (loOff i)).toNat < 2 ^ 4 := (nibbleAt F (loOff i)).isLt
  calc (digitByte F i).toNat
      = (nibbleAt F (hiOff i)).toNat <<< 4 ||| (nibbleAt F (loOff i)).toNat := BitVec.toNat_append _ _
    _ = digitValue F i := by
      rw [← Nat.shiftLeft_add_eq_or_of_lt low, Nat.shiftLeft_eq, Nat.mul_comm]
      rfl

/-- The pattern of a lane is the low seven bits of its DigitByte (41_decoder.md R108). -/
theorem digPat_digitByte (F : FrameWord) (i : Fin 4) : digPat (digitByte F i) = BitVec.ofNat 7 (digitValue F i) := by
  refine BitVec.eq_of_toNat_eq ?_
  rw [digPat, BitVec.extractLsb'_toNat, Nat.shiftRight_zero, digitByte_toNat, BitVec.toNat_ofNat]

/-- The pattern of a lane as a number (41_decoder.md R108). -/
theorem decLane_pat_toNat (T : Tables) (F : FrameWord) (i : Fin 4) : (decLane T F i).pat.toNat = digitValue F i % 128 := by
  rw [decLane, digPat_digitByte, BitVec.toNat_ofNat]

/-- The flag of a lane is the top bit of its first nibble (41_decoder.md R107). -/
theorem decLane_flag (T : Tables) (F : FrameWord) (i : Fin 4) : (decLane T F i).flag = (nibbleAt F (hiOff i)).getLsbD 3 :=
  BitVec.getLsbD_append

/-- A lane reads its own two nibbles only (41_decoder.md R121). -/
theorem decLane_congr (T : Tables) {F G : FrameWord} {i : Fin 4} (high : nibbleAt F (hiOff i) = nibbleAt G (hiOff i))
    (low : nibbleAt F (loOff i) = nibbleAt G (loOff i)) : decLane T F i = decLane T G i := by
  have same : digitByte F i = digitByte G i := congrArg₂ (· ++ ·) high low
  rw [decLane, decLane, same]

/-- No two lanes share a nibble (41_decoder.md R106). -/
theorem laneOffsets_disjoint {i j : Fin 4} (h : j ≠ i) :
    (hiOff j ≠ hiOff i ∧ hiOff j ≠ loOff i) ∧ loOff j ≠ hiOff i ∧ loOff j ≠ loOff i := by
  simp only [hiOff, loOff, ne_eq, Fin.mk.injEq]
  omega

/-- Settles O31: the DigitByte and its pattern by arithmetic; known and character are the table's at that pattern. -/
theorem lanesLookUpTheirPattern : Obligations.LanesLookUpTheirPattern := by
  unfold Obligations.LanesLookUpTheirPattern
  intro T F ts v i
  have inByte : digitValue F i < 256 := digitByte_toNat F i ▸ (digitByte F i).isLt
  rw [decPort_lane]
  exact ⟨digitByte_toNat F i, inByte, decLane_pat_toNat T F i, rfl, rfl⟩

/-- Settles O33: a lane by its two nibbles, which are none of another lane's. -/
theorem lanesAreIndependent : Obligations.LanesAreIndependent := by
  unfold Obligations.LanesAreIndependent
  intro T F G ts v i
  refine ⟨fun high low => ?_, fun others j other => ?_⟩
  · rw [decPort_lane, decPort_lane, decLane_congr T high low]
  · obtain ⟨⟨highHigh, highLow⟩, lowHigh, lowLow⟩ := laneOffsets_disjoint other
    rw [decPort_lane, decPort_lane, decLane_congr T (others _ highHigh highLow) (others _ lowHigh lowLow)]

/-! ### The digits string -/

/-- The mark before the character of a flagged lane: `-` for the sign, `.` for a point (41_decoder.md R109). -/
def laneMark (i : Fin 4) : Byte := if i = 0 then 0x2D#8 else 0x2E#8

/-- The text of a lane, read from the frame word (41_decoder.md R107 to R109). -/
theorem laneText_decLane (T : Tables) (F : FrameWord) (i : Fin 4) (mark : Byte) :
    laneText mark (decLane T F i) = (if (nibbleAt F (hiOff i)).getLsbD 3 then [mark] else []) ++
      [(T.segAt (BitVec.ofNat 7 (digitValue F i))).getD 0x3F#8] := by
  rw [laneText_eq, decLane_flag, ← digPat_digitByte]
  rfl

/-- The digits are the lanes' texts in position order (41_decoder.md R109). -/
theorem decodeReading_digits_flatMap (T : Tables) (f : Frame) :
    (decodeReading T f).digits = (List.finRange 4).flatMap fun i => laneText (laneMark i) (decLane T f.word i) := by
  simp [decodeReading_digits, laneMark, List.finRange_succ]

/-- The text of a list of lanes has a character for each and a mark for each that is flagged (41_decoder.md R110). -/
theorem length_flatMap_laneText {ι : Type} (mark : ι → Byte) (lane : ι → Lane) (is : List ι) :
    (is.flatMap fun i => laneText (mark i) (lane i)).length = is.length + (is.filter fun i => (lane i).flag).length := by
  induction is with
  | nil => rfl
  | cons i is ih =>
    rw [List.flatMap_cons, List.length_append, ih, laneText_eq]
    cases flag : (lane i).flag <;> simp [flag] <;> omega

/-- Settles O32: the digits lane by lane, each lane's text read from the frame word, and one mark for each flag. -/
theorem digitsTextMarksFlaggedLanes : Obligations.DigitsTextMarksFlaggedLanes := by
  unfold Obligations.DigitsTextMarksFlaggedLanes
  intro T f
  constructor
  · simp only [decodeReading_digits_flatMap, laneText_decLane, laneMark]
  · rw [decodeReading_digits_flatMap, length_flatMap_laneText, List.length_finRange]
    simp only [decLane_flag]

/-! ### The last match -/

/-- The scan's valid index is that of a matching entry that no matching entry follows (41_decoder.md R112). -/
theorem lastMatch_last {es : List KeyEntry} {F : FrameWord} (valid : (lastMatch es F).1 = true) :
    ∃ e, es[(lastMatch es F).2]? = some e ∧ KeyHit e F ∧
      ∀ j e', (lastMatch es F).2 < j → es[j]? = some e' → ¬KeyHit e' F := by
  induction es using List.reverseRecOn with
  | nil => simp [lastMatch] at valid
  | append_singleton es d ih =>
    rw [lastMatch_snoc] at valid ⊢
    split at valid
    case isTrue hit =>
      rw [if_pos hit]
      refine ⟨d, by simp, (keyMatch_iff d F).mp hit, fun j e' after at_j => ?_⟩
      have beyond : (es ++ [d])[j]? = none := List.getElem?_eq_none (by simpa using after)
      simp [beyond] at at_j
    case isFalse miss =>
      rw [if_neg miss]
      obtain ⟨e, at_idx, hit, later⟩ := ih valid
      refine ⟨e, by rw [List.getElem?_append_left (lastMatch_idx_lt valid), at_idx], hit, fun j e' after at_j => ?_⟩
      rcases Nat.lt_or_ge j es.length with before | beyond
      · rw [List.getElem?_append_left before] at at_j
        exact later j e' after at_j
      · rw [List.getElem?_append_right beyond] at at_j
        obtain rfl : e' = d := List.mem_singleton.mp (List.mem_of_getElem? at_j)
        exact fun hit => miss ((keyMatch_iff e' F).mpr hit)

/-- The scan is the last match (41_decoder.md R112). -/
theorem lastOf_lastMatch (es : List KeyEntry) (F : FrameWord) : LastOf es F (lastMatch es F).1 (lastMatch es F).2 where
  valid_iff := lastMatch_valid_iff es F
  last := lastMatch_last
  zero := lastMatch_idx_of_invalid

/-- Settles O35: both outputs are the scan's, and the symbols are read at them. -/
theorem prefixAndUnitAreLastMatches : Obligations.PrefixAndUnitAreLastMatches := by
  unfold Obligations.PrefixAndUnitAreLastMatches
  intro T F ts v
  exact ⟨lastOf_lastMatch T.pfx F, lastOf_lastMatch T.unit F, rfl, rfl⟩

/-- The scan stops at an entry that matches and that no matching entry follows (41_decoder.md R112). -/
theorem lastMatch_of_last {l r : List KeyEntry} {e : KeyEntry} {F : FrameWord} (hit : KeyHit e F)
    (later : ∀ e' ∈ r, ¬KeyHit e' F) : lastMatch (l ++ e :: r) F = (true, l.length) := by
  have noMatch : ∀ e' ∈ r, keyMatch e' F = false := fun e' mem =>
    Bool.eq_false_iff.mpr fun isHit => later e' mem ((keyMatch_iff e' F).mp isHit)
  rw [lastMatch, lastMatchFrom_append, lastMatchFrom_cons, lastMatchFrom_of_no_match F r _ _ noMatch,
    if_pos ((keyMatch_iff e F).mpr hit), Nat.zero_add]

/-- The symbol reported is that of the last matching entry (41_decoder.md R112, R113). -/
theorem symbolAt_lastMatch_of_last {es l r : List KeyEntry} {e : KeyEntry} {F : FrameWord} (table : es = l ++ e :: r)
    (hit : KeyHit e F) (later : ∀ e' ∈ r, ¬KeyHit e' F) :
    symbolAt es (lastMatch es F).1 (lastMatch es F).2 = some e.sym := by
  rw [table, lastMatch_of_last hit later]
  simp [symbolAt]

/-- Settles O36: a sole match is the last one, in either table. -/
theorem soleMatchIsReported : Obligations.SoleMatchIsReported := by
  unfold Obligations.SoleMatchIsReported
  intro T f l r e hit others
  have later : ∀ e' ∈ r, ¬KeyHit e' f.word := fun e' mem => others e' (List.mem_append_right l mem)
  exact ⟨fun table => symbolAt_lastMatch_of_last table hit later, fun table => symbolAt_lastMatch_of_last table hit later⟩

/-! ### The options of any table -/

/-- One more entry behind a list without repeats is dropped if the list has it, and stands at the end otherwise. -/
theorem eraseDups_snoc (L : List String) (x : String) :
    (L ++ [x]).eraseDups = if L.contains x then L.eraseDups else L.eraseDups ++ [x] := by
  rw [List.eraseDups_append]
  cases seen : L.contains x <;> simp_all [List.removeAll, List.eraseDups_cons]

/-- The option scan keeps the first of each symbol: from the symbols `L` without their repeats it comes to those of `L` and the
entries that match, without theirs (41_decoder.md R114). -/
theorem optionsFrom_eraseDups (F : FrameWord) (bits : BitVec 7) (es : List KeyEntry) (j : Nat) (L : List String)
    (matched : ∀ (k : Nat) (h : k < es.length), bits.getLsbD (j + k) = keyMatch es[k] F) :
    optionsFrom bits j L.eraseDups es = (L ++ (es.filter fun e => keyMatch e F).map KeyEntry.sym).eraseDups := by
  induction es generalizing j L with
  | nil => simp
  | cons e es ih =>
    have first : bits.getLsbD j = keyMatch e F := matched 0 (by simp)
    have later : ∀ (k : Nat) (h : k < es.length), bits.getLsbD (j + 1 + k) = keyMatch es[k] F := fun k h => by
      rw [Nat.add_right_comm]
      exact matched (k + 1) (Nat.succ_lt_succ h)
    rw [optionsFrom_cons, first]
    cases hit : keyMatch e F with
    | true =>
      have turn : (if true && !L.eraseDups.contains e.sym then L.eraseDups ++ [e.sym] else L.eraseDups)
          = (L ++ [e.sym]).eraseDups := by
        simp [eraseDups_snoc]
      rw [turn, ih (j + 1) (L ++ [e.sym]) later]
      simp [hit]
    | false =>
      simpa [hit] using ih (j + 1) L later

/-- Option bit `j` of the port is the match of entry `j` (41_decoder.md R115). -/
theorem decPort_optVec_getLsbD (T : Tables) (F : FrameWord) (ts : TS) (v : Bool) (j : Fin 7) :
    (decPort T F ts v).optVec.getLsbD j.val = keyMatch T.opt[j] F :=
  optionBits_getLsbD T F j.val j.isLt

/-- Settles O38: the bits entry by entry, the scan from the empty list, and with distinct names `options_of_distinct`. -/
theorem optionsAreAllMatchesInTableOrder : Obligations.OptionsAreAllMatchesInTableOrder := by
  unfold Obligations.OptionsAreAllMatchesInTableOrder
  intro T f
  refine ⟨decPort_optVec_getLsbD T f.word f.ts true, ?_, fun distinct => ?_⟩
  · exact optionsFrom_eraseDups f.word (optionBits T f.word) T.opt.toList 0 [] fun k h => by
      simpa using optionBits_getLsbD T f.word k (by simpa using h)
  · exact options_of_distinct T f (of_decide_eq_true distinct)

/-! ### DECODE and the Reading -/

/-- Settles O30: DECODE is `driveDec`, and its port is described lane by lane, table by table and bit by bit. -/
theorem decodeDrivesOnlyTheReadingPort : Obligations.DecodeDrivesOnlyTheReadingPort := by
  unfold Obligations.DecodeDrivesOnlyTheReadingPort
  intro F s
  refine ⟨driveDec F s, exec_decode F s, rfl, rfl, rfl, fun i => ?_, lastOf_lastMatch s.tables.pfx F,
    lastOf_lastMatch s.tables.unit F, fun j => ?_, rfl, rfl⟩
  · rw [driveDec_dec, decPort_lane]
    exact ⟨decLane_pat_toNat s.tables F i, decLane_flag s.tables F i⟩
  · rw [driveDec_dec, decPort_optVec_getLsbD]
    exact keyMatch_iff s.tables.opt[j] F

/-- Settles O42: a step ends with DEC driven from the frame register, where `reading_of_port` is the statement. -/
theorem eachFrameGivesItsReading : Obligations.EachFrameGivesItsReading := by
  unfold Obligations.EachFrameGivesItsReading
  intro s t h
  obtain ⟨s1, -, rfl⟩ := step_effect h
  exact reading_of_port (by simp)

end Sys2Proof.Proofs
end

section
/-! PROOFS. Exceptions (60_exceptions.md): nothing stops the machine (R136), only RST leaves the terminal state (R129), only a
terminator in RUN emits (R131), and where a run is over and what is observed of it (R137). -/

namespace Sys2Proof.Proofs

open Sys2Proof Sys2Proof.Machine Sys2Proof.Claims

/-- Settles O12: no operation and no step stops, and `in_ready` is the constant 1. -/
theorem nothingStopsTheMachine : Obligations.NothingStopsTheMachine := by
  unfold Obligations.NothingStopsTheMachine
  refine ⟨exec_goesOn, fun s => ?_⟩
  obtain ⟨t, first⟩ := step_goesOn s
  exact ⟨t, first, rfl⟩

/-! ### Leaving the terminal state, and emitting -/

section
variable {s s1 : State}

/-- From the terminal state every effect but RST's keeps `term` or needs RUN (60_exceptions.md R129). -/
theorem EventEffect.reset_of_term_ne (h : EventEffect s s1) (ended : s.term ≠ .run) (changed : s1.term ≠ s.term) :
    fetchEvent s = .rst ∧ s1.term = .run := by
  cases h with
  | cleared => exact absurd rfl changed
  | retained _ _ _ run | recognised _ _ _ run | ended _ _ run => exact absurd run ended
  | reset event => exact ⟨event, rfl⟩

/-- Only a recognition leaves a Frame out, and its byte is a terminator by R90's second clause (60_exceptions.md R131). -/
theorem EventEffect.fterm_of_valid (h : EventEffect s s1) (valid : s1.frameValid = true) :
    (∃ dat, fetchEvent s = .fterm dat) ∧ s.term = .run := by
  cases h with
  | cleared | retained | ended | reset => cases valid
  | recognised idx dat event run complete =>
    obtain rfl : idx = 0xE#4 := (byteIdx_mkByte idx dat).symm.trans complete.2.1
    exact ⟨⟨dat, event⟩, run⟩

end

/-- Settles O25: neither DEC nor the next beat touches `term`, so it is the event's effect that changes it. -/
theorem onlyResetLeavesTerminal : Obligations.OnlyResetLeavesTerminal := by
  unfold Obligations.OnlyResetLeavesTerminal
  intro s t h ended changed
  obtain ⟨s1, effect, rfl⟩ := step_effect h
  simpa using effect.reset_of_term_ne ended (by simpa using changed)

/-- Settles O26: the event by `EventEffect.fterm_of_valid`, the state it leaves by `EventEffect.pulse`. -/
theorem onlyTerminatorEmits : Obligations.OnlyTerminatorEmits := by
  unfold Obligations.OnlyTerminatorEmits
  intro s t h valid
  obtain ⟨s1, effect, rfl⟩ := step_effect h
  have valid1 : s1.frameValid = true := by simpa using valid
  obtain ⟨fterm, run⟩ := effect.fterm_of_valid valid1
  obtain ⟨cnt, run1⟩ := effect.pulse valid1
  exact ⟨fterm, run, by simpa using run1, by simpa using cnt⟩

/-! ### What a beat does to `term`, and what is read after it -/

/-- The status that an event leaves in RUN (60_exceptions.md R126). -/
def statusAfter : Event → TermStatus
  | .eos => .eos
  | .ioErr => .ioErr
  | .idle | .byte _ | .rst => .run

/-- The terminal events are those that leave RUN. -/
theorem endsStream_iff (x : InputBeat) : EndsStream x ↔ statusAfter (eventOf x) ≠ .run := by
  unfold EndsStream
  cases eventOf x <;> simp [statusAfter]

/-- A byte leaves the status as it is, whether it completes a frame or not (60_exceptions.md R131). -/
theorem absorbTerminator_term (b : Byte) (s : State) : (absorbTerminator b s).term = s.term := by
  obtain ⟨-, -, eq⟩ | ⟨-, -, eq⟩ | ⟨-, eq⟩ := absorbTerminator_cases b s <;> rw [eq] <;> rfl

/-- In RUN an event leaves its own status. -/
theorem respond_term_of_run (e : Event) {s : State} (run : s.term = .run) : (respond e s).term = statusAfter e := by
  cases e with
  | idle => exact run
  | byte x => exact (absorbTerminator_term x.b s).trans run
  | eos | ioErr => rw [respond, endStream_run _ s run]; rfl
  | rst => rfl

/-- In RUN a beat leaves its event's status. -/
theorem afterBeat_term_of_run (x : InputBeat) {s : State} (run : s.term = .run) :
    (afterBeat x s).term = statusAfter (eventOf x) :=
  (afterBeat_term x s).trans (respond_term_of_run (eventOf x) run)

/-- In RUN a beat that is no terminal event leaves the machine in RUN. -/
theorem afterBeat_run {x : InputBeat} {s : State} (run : s.term = .run) (goes : ¬EndsStream x) :
    (afterBeat x s).term = .run :=
  (afterBeat_term_of_run x run).trans (not_not.mp (mt (endsStream_iff x).mpr goes))

/-- No beat writes the tables (20_memory.md R50). -/
@[simp] theorem afterBeat_tables (x : InputBeat) (s : State) : (afterBeat x s).tables = s.tables := by
  simpa [afterBeat] using exec_tables (exec_instrOf (eventOf x) (s.present x))

/-- The Reading seen after a beat is the decode of the Frame seen (41_decoder.md R118). -/
theorem afterBeat_obs_reading (x : InputBeat) (s : State) :
    (afterBeat x s).obs.reading = (afterBeat x s).obs.frame.map (decodeReading s.tables) := by
  have reading := eachFrameGivesItsReading _ _ (step_present x s)
  rwa [afterBeat_tables] at reading

/-- Every Reading of a run is the decode of its Frame. -/
theorem run_readings {s t : State} {xs : List InputBeat} {os : List Obs} (run : Run s xs os t) :
    ∀ o ∈ os, o.reading = o.frame.map (decodeReading s.tables) := by
  induction xs generalizing s os with
  | nil =>
    obtain ⟨rfl, -⟩ := run_nil_iff.mp run
    exact nofun
  | cons x xs ih =>
    obtain ⟨os1, rfl, rest⟩ := run_cons_afterBeat_iff.mp run
    have later := ih rest
    rw [afterBeat_tables] at later
    exact List.forall_mem_cons.mpr ⟨afterBeat_obs_reading x s, later⟩

/-! ### The run to its end -/

/-- Every finite sequence has a run to its end, since no step stops. -/
theorem toEnd_exists (xs : List InputBeat) (s : State) : ∃ os t, ToEnd s xs os t := by
  induction xs generalizing s with
  | nil => exact ⟨[], s, .finished (.inr rfl)⟩
  | cons x xs ih =>
    by_cases ended : RunOver s (x :: xs)
    · exact ⟨[], s, .finished ended⟩
    · obtain ⟨os, t, rest⟩ := ih (afterBeat x s)
      exact ⟨_, t, .beat ended (step_present x s) rest⟩

/-- A run that is not over goes on from `afterBeat`. -/
theorem toEnd_cons_afterBeat_iff {s t : State} {x : InputBeat} {xs : List InputBeat} {os : List Obs} (going : ¬s.Over) :
    ToEnd s (x :: xs) os t ↔ ∃ os1, os = (afterBeat x s).obs :: os1 ∧ ToEnd (afterBeat x s) xs os1 t := by
  simp [toEnd_of_going going, step_present]

/-- A run to its end is determined by where it starts and its sequence. -/
theorem toEnd_unique {s t t' : State} {xs : List InputBeat} {os os' : List Obs} (h : ToEnd s xs os t)
    (h' : ToEnd s xs os' t') : os' = os ∧ t' = t := by
  induction h generalizing os' with
  | finished ended => exact (toEnd_of_over ended).mp h'
  | beat going first _ ih =>
    obtain ⟨s1', os1', first', rfl, rest'⟩ := (toEnd_of_going fun ended => going (.inl ended)).mp h'
    obtain rfl := Host.Outcome.next.inj (first.symm.trans first')
    obtain ⟨rfl, rfl⟩ := ih rest'
    exact ⟨rfl, rfl⟩

/-- From RUN, events of which none is terminal are all taken, and the run goes on in RUN behind them. -/
theorem toEnd_append {pre ys : List InputBeat} {s t : State} {os : List Obs} (h : ToEnd s (pre ++ ys) os t)
    (run : s.term = .run) (goes : ∀ x ∈ pre, ¬EndsStream x) :
    ∃ os1 os2 s', os = os1 ++ os2 ∧ os1.length = pre.length ∧ s'.term = .run ∧ ToEnd s' ys os2 t := by
  induction pre generalizing s os with
  | nil => exact ⟨[], os, s, rfl, rfl, run, h⟩
  | cons x pre ih =>
    obtain ⟨goesX, goesPre⟩ := List.forall_mem_cons.mp goes
    obtain ⟨os1, rfl, rest⟩ := (toEnd_cons_afterBeat_iff (not_not.mpr run)).mp h
    obtain ⟨os2, os3, s', rfl, length, run', rest'⟩ := ih rest (afterBeat_run run goesX) goesPre
    exact ⟨_ :: os2, os3, s', rfl, congrArg (· + 1) length, run', rest'⟩

/-- Without a terminal event a run is over when its sequence is consumed, in RUN (60_exceptions.md R137). -/
theorem toEnd_of_no_terminal {xs : List InputBeat} {s t : State} {os : List Obs} (h : ToEnd s xs os t)
    (run : s.term = .run) (goes : ∀ x ∈ xs, ¬EndsStream x) : os.length = xs.length ∧ t.term = .run := by
  rw [← List.append_nil xs] at h
  obtain ⟨os1, os2, s', rfl, length, run', rest⟩ := toEnd_append h run goes
  obtain ⟨rfl, rfl⟩ := (toEnd_of_over (.inr rfl)).mp rest
  exact ⟨by simpa using length, run'⟩

/-- A run is over right after its first terminal event, with that event's status (60_exceptions.md R137). -/
theorem toEnd_of_first_terminal {pre post : List InputBeat} {x : InputBeat} {s t : State} {os : List Obs}
    (h : ToEnd s (pre ++ x :: post) os t) (run : s.term = .run) (goes : ∀ y ∈ pre, ¬EndsStream y) (ends : EndsStream x) :
    os.length = pre.length + 1 ∧ t.term = statusAfter (eventOf x) := by
  obtain ⟨os1, os2, s', rfl, length, run', rest⟩ := toEnd_append h run goes
  obtain ⟨os3, rfl, rest'⟩ := (toEnd_cons_afterBeat_iff (not_not.mpr run')).mp rest
  have status := afterBeat_term_of_run x run'
  have ended : (afterBeat x s').Over := status.trans_ne ((endsStream_iff x).mp ends)
  obtain ⟨rfl, rfl⟩ := (toEnd_of_over (.inl ended)).mp rest'
  exact ⟨by simp [length], status⟩

/-! ### The observation of a run -/

/-- Where the Reading is a function of the Frame, a step's output is one of its Frame. -/
theorem output_eq_map {o : Obs} {decode : Frame → Reading} (reading : o.reading = o.frame.map decode) (n : Nat) :
    o.output n = o.frame.map fun f => ⟨n, f, decode f⟩ := by
  unfold Obs.output
  rw [reading]
  cases o.frame <;> rfl

/-- An output's index is its step's. -/
theorem output_index {n : Nat} {o : Obs} {a : Output} (h : o.output n = some a) : a.index = n := by
  obtain ⟨f, -, h⟩ := Option.bind_eq_some_iff.mp h
  obtain ⟨r, -, rfl⟩ := Option.map_eq_some_iff.mp h
  rfl

/-- The outputs of a run are those of its numbered steps. -/
theorem outputsFrom_eq_filterMap (n : Nat) (os : List Obs) :
    outputsFrom n os = (os.zipIdx n).filterMap fun p => p.1.output p.2 := by
  induction os generalizing n with
  | nil => rfl
  | cons o os ih => cases h : o.output n <;> simp [h, ih]

/-- Outputs stand in the order of their steps. -/
theorem outputsFrom_pairwise (n : Nat) (os : List Obs) : (outputsFrom n os).Pairwise fun a b => a.index < b.index := by
  have rising : (os.zipIdx n).Pairwise fun p q => p.2 < q.2 := by
    rw [← List.pairwise_map (f := Prod.snd) (R := (· < ·)), List.zipIdx_map_snd]
    exact List.pairwise_lt_range'
  rw [outputsFrom_eq_filterMap, List.pairwise_filterMap]
  refine rising.imp fun below a ha b hb => ?_
  rwa [output_index ha, output_index hb]

/-- The outputs are exactly the Frames of the steps, each with its step's index and its decode. -/
theorem mem_outputs_iff {os : List Obs} {decode : Frame → Reading} (readings : ∀ o ∈ os, o.reading = o.frame.map decode)
    (n : Nat) (f : Frame) (rd : Reading) :
    ⟨n, f, rd⟩ ∈ outputsFrom 0 os ↔ (∃ o, os[n]? = some o ∧ o.frame = some f) ∧ rd = decode f := by
  rw [outputsFrom_eq_filterMap, List.mem_filterMap]
  constructor
  · rintro ⟨⟨o, k⟩, step, shown⟩
    obtain rfl : n = k := output_index shown
    have step : os[n]? = some o := List.mk_mem_zipIdx_iff_getElem?.mp step
    rw [output_eq_map (readings o (List.mem_of_getElem? step))] at shown
    obtain ⟨f', frame, eq⟩ := Option.map_eq_some_iff.mp shown
    cases eq
    exact ⟨⟨o, step, frame⟩, rfl⟩
  · rintro ⟨⟨o, step, frame⟩, rfl⟩
    refine ⟨(o, n), List.mk_mem_zipIdx_iff_getElem?.mpr step, ?_⟩
    rw [output_eq_map (readings o (List.mem_of_getElem? step)), frame]
    rfl

/-! ### Infinite runs -/

/-- The states that an infinite sequence of events leads through. -/
def statesOver (s : State) (xs : Nat → InputBeat) : Nat → State
  | 0 => s
  | n + 1 => afterBeat (xs n) (statesOver s xs n)

section
variable {s : State} {xs : Nat → InputBeat} {tr : Nat → State}

/-- From RUN and without a terminal event every state is in RUN. -/
theorem statesOver_run (run : s.term = .run) (goes : ∀ n, ¬EndsStream (xs n)) (n : Nat) : (statesOver s xs n).term = .run := by
  induction n with
  | zero => exact run
  | succ n ih => exact afterBeat_run ih (goes n)

/-- No state of the sequence has other tables than the first (20_memory.md R50). -/
theorem statesOver_tables (n : Nat) : (statesOver s xs n).tables = s.tables := by
  induction n with
  | zero => rfl
  | succ n ih => exact (afterBeat_tables _ _).trans ih

/-- Each state of an infinite run is the one its event leaves. -/
theorem infiniteRun_succ (h : InfiniteRun s xs tr) (n : Nat) : tr (n + 1) = afterBeat (xs n) (tr n) :=
  (Host.Outcome.next.inj ((step_present _ _).symm.trans (h.next n))).symm

/-- There is no infinite run but `statesOver`. -/
theorem infiniteRun_eq_statesOver (h : InfiniteRun s xs tr) : tr = statesOver s xs := by
  funext n
  induction n with
  | zero => exact h.start
  | succ n ih => rw [infiniteRun_succ h, ih]; rfl

/-- An infinite run takes no terminal event: it would be over. -/
theorem infiniteRun_not_endsStream (h : InfiniteRun s xs tr) (n : Nat) : ¬EndsStream (xs n) := by
  have next := h.goes (n + 1)
  rw [infiniteRun_succ h, State.Over, afterBeat_term_of_run (xs n) (not_not.mp (h.goes n))] at next
  exact mt (endsStream_iff _).mp next

/-- From RUN and without a terminal event there is an infinite run. -/
theorem infiniteRun_statesOver (run : s.term = .run) (goes : ∀ n, ¬EndsStream (xs n)) : InfiniteRun s xs (statesOver s xs) where
  start := rfl
  next _ := step_present _ _
  goes n := not_not.mpr (statesOver_run run goes n)

/-- The Reading seen after each step is the decode of its Frame by the tables of the start. -/
theorem statesOver_reading (n : Nat) :
    (statesOver s xs (n + 1)).obs.reading = (statesOver s xs (n + 1)).obs.frame.map (decodeReading s.tables) := by
  have reading := afterBeat_obs_reading (xs n) (statesOver s xs n)
  rwa [statesOver_tables] at reading

end

/-- Settles O59: existence and uniqueness by induction, the end by `toEnd_append`, the outputs by the readings of the run. -/
theorem runsAreOverAtTheirEnd : Obligations.RunsAreOverAtTheirEnd := by
  unfold Obligations.RunsAreOverAtTheirEnd
  rintro s ⟨⟨-, run⟩, -⟩
  refine ⟨fun xs => ?_, fun xs goes => ?_, fun xs n ends ⟨tr, infinite⟩ => infiniteRun_not_endsStream infinite n ends⟩
  · obtain ⟨os, t, toEnd⟩ := toEnd_exists xs s
    refine ⟨os, t, toEnd, toEnd_over toEnd, fun _ _ => toEnd_unique toEnd, fun goes => ?_, fun pre x post split goes ends => ?_,
      mem_outputs_iff (run_readings (toEnd_run toEnd)), outputsFrom_pairwise 0 os⟩
    · obtain ⟨length, term⟩ := toEnd_of_no_terminal toEnd run goes
      exact ⟨length, congrArg TermStatus.code term⟩
    · subst split
      obtain ⟨length, term⟩ := toEnd_of_first_terminal toEnd run goes ends
      have code : t.termCode = (statusAfter (eventOf x)).code := congrArg TermStatus.code term
      exact ⟨length, fun eos => by rw [eos] at code; exact code, fun ioErr => by rw [ioErr] at code; exact code⟩
  · exact ⟨_, infiniteRun_statesOver run goes, fun _ => infiniteRun_eq_statesOver,
      fun n => output_eq_map (statesOver_reading n) n⟩

end Sys2Proof.Proofs
end
